-- ==== Sys2Proof/Word.lean ====
section
/-! DEFINITION. The plain data types the spec fixes: the timestamp, the frame buffer, the write cursor and the six-field date and time. -/

namespace Sys2Proof

/-- A millisecond timestamp or a difference of two: `TSW` bits, unsigned (R7; `TSW = 16`, 92_eei_decisions.md D3). -/
abbrev Timestamp := BitVec 16

/-- The frame buffer: 59 one-bit slots, index order is arrival order (R23, R41, R45). It has no significance order. -/
abbrev Frame := Vector Bool 59

/-- The write cursor: 0 to 58. It is held in 6 bits and never takes 59 to 63, so they cannot be written
down (R24; 93_implementation_defined.md U7). -/
abbrev Cursor := Fin 59

/-- Six date and time fields at the widths of R26 (`DecodedTime`) and R9 (`LocalTime`, the same widths). -/
structure CivilTime where
  year    : BitVec 12
  month   : BitVec 4
  day     : BitVec 5
  weekday : BitVec 3
  hour    : BitVec 5
  minute  : BitVec 6
  deriving DecidableEq, Repr, Inhabited

/-- The last accepted date and time (R26, R28). -/
abbrev DecodedTime := CivilTime

/-- The projection of a `DecodedTime`; never stored (R29, R150). -/
abbrev LocalTime := CivilTime

end Sys2Proof
end

