-- ==== Sys2Proof/Config.lean ====
section
/-! DEFINITION. The constants of R6, which are fixed and not configurable (R86, R200), and the one value the spec leaves open. -/

namespace Sys2Proof.Config

/-- Falling-edge window of `SecondMark`, both ends included (R6, R65). -/
@[simp] abbrev SEC_LO : Nat := 900
@[simp] abbrev SEC_HI : Nat := 1100

/-- Falling-edge window of `MinuteMark`, both ends included (R6, R65). -/
@[simp] abbrev MIN_LO : Nat := 1900
@[simp] abbrev MIN_HI : Nat := 2100

/-- Rising-edge window of `ZeroBit`, both ends included (R6, R66). -/
@[simp] abbrev ZERO_LO : Nat := 70
@[simp] abbrev ZERO_HI : Nat := 130

/-- Rising-edge window of `OneBit`, both ends included (R6, R66). -/
@[simp] abbrev ONE_LO : Nat := 170
@[simp] abbrev ONE_HI : Nat := 230

/-- The last slot, the only cursor at which a `MinuteMark` ends a frame (R6, R105). -/
@[simp] abbrev CURSOR_MAX : Nat := 58

/-- The year a frame's offset 0 stands for (R6, R77). -/
@[simp] abbrev YEAR_BASE : Nat := 2000

/-- The projection of a time outside the legal ranges of R26: the source defines nothing and the treatment
is `any value` (93_implementation_defined.md U5, 92_eei_decisions.md D19). A free value: no body, nothing
can be proved of it (assumption log 3). -/
opaque projectOutOfRange : DecodedTime → LocalTime

end Sys2Proof.Config
end

