-- ==== Sys2Proof/Syntax.lean ====
section
/-! DEFINITION. The six events of the sampler-to-assembler bus and the operations of spec/opcode_table.json, one constructor a row. -/

namespace Sys2Proof

/-- The six events (R62). Codes 6 and 7 have no event (R63). -/
inductive Event where
  | noEvent | secondMark | zeroBit | oneBit | minuteMark | invalid
  deriving DecidableEq, Repr

/-- The operations of the decoder core, in the table's order. This hardware fetches no instructions; an
operation is what one tick performs (EDGE2, EDGE2+DELTA), what the frame assembler performs on one event
(EVENT3), or one unit of frame completion reading a frame word (FRAME59). -/
inductive Instr where
  -- EVENT3: no operands, the slot written is given by the cursor (R62, R101 to R106)
  | noEvent
  | secondMark
  | zeroBit
  | oneBit
  | minuteMark
  | invalid
  -- EVENT3, reserved codes (R63)
  | reservedEvent6
  | reservedEvent7
  -- EDGE2: the operand is the tick's `ts_in` (R60, R61, R81 to R83)
  | holdLow (ts : Timestamp)
  | rise (ts : Timestamp)
  | fall (ts : Timestamp)
  | holdHigh (ts : Timestamp)
  -- EDGE2+DELTA: the operand is `delta = (ts_in - tRef) mod 2^TSW` (R64 to R67)
  | fallSecondMark (delta : Timestamp)
  | fallMinuteMark (delta : Timestamp)
  | fallInvalid (delta : Timestamp)
  | riseZeroBit (delta : Timestamp)
  | riseOneBit (delta : Timestamp)
  | riseInvalid (delta : Timestamp)
  -- FRAME59: the operand is the 59-slot frame word (R68, R107, R121 to R123, R131 to R136)
  | frame (f : Frame)
  | parityMinute (f : Frame)
  | parityHour (f : Frame)
  | parityDate (f : Frame)
  | fieldMinute (f : Frame)
  | fieldHour (f : Frame)
  | fieldDay (f : Frame)
  | fieldWeekday (f : Frame)
  | fieldMonth (f : Frame)
  | fieldYear (f : Frame)
  deriving DecidableEq, Repr

end Sys2Proof
end

