-- ==== Sys2Proof/WellFormed.lean ====
section
/-! DEFINITION. Which terms of `Instr` the encoding tables admit: an EDGE2+DELTA row is selected by its window on `delta`. -/

namespace Sys2Proof

/-- `lo ≤ x ≤ hi`, both ends included (00_scope.md section 7). -/
abbrev Timestamp.within (lo hi : Nat) (x : Timestamp) : Bool :=
  decide (lo ≤ x.toNat ∧ x.toNat ≤ hi)

open Config in
/-- The conditions on `delta` of the EDGE2+DELTA rows (R65, R66, R67); every other row admits every operand. -/
def Instr.wellFormed : Instr → Bool
  | .noEvent => true
  | .secondMark => true
  | .zeroBit => true
  | .oneBit => true
  | .minuteMark => true
  | .invalid => true
  | .reservedEvent6 => true
  | .reservedEvent7 => true
  | .holdLow _ => true
  | .rise _ => true
  | .fall _ => true
  | .holdHigh _ => true
  | .fallSecondMark d => d.within SEC_LO SEC_HI
  | .fallMinuteMark d => d.within MIN_LO MIN_HI
  | .fallInvalid d => !(d.within SEC_LO SEC_HI) && !(d.within MIN_LO MIN_HI)
  | .riseZeroBit d => d.within ZERO_LO ZERO_HI
  | .riseOneBit d => d.within ONE_LO ONE_HI
  | .riseInvalid d => !(d.within ZERO_LO ZERO_HI) && !(d.within ONE_LO ONE_HI)
  | .frame _ => true
  | .parityMinute _ => true
  | .parityHour _ => true
  | .parityDate _ => true
  | .fieldMinute _ => true
  | .fieldHour _ => true
  | .fieldDay _ => true
  | .fieldWeekday _ => true
  | .fieldMonth _ => true
  | .fieldYear _ => true

end Sys2Proof
end

