-- ==== Sys2Proof/Decode.lean ====
section
/-! DEFINITION. The encodings of 30_encoding.md and spec/opcode_table.json: event codes, timing windows, operation words by format, the decoder and the encoder. -/

namespace Sys2Proof

/-! ## Event codes (R62, R63) -/

/-- The 3-bit code of an event, in the source's order of listing (R62; 92_eei_decisions.md D11). -/
def Event.code : Event → BitVec 3
  | .noEvent => 0
  | .secondMark => 1
  | .zeroBit => 2
  | .oneBit => 3
  | .minuteMark => 4
  | .invalid => 5

/-- The event of a 3-bit code; the reserved codes 6 and 7 are refused (R63). -/
def Event.ofCode (c : BitVec 3) : Option Event :=
  match c.toNat with
  | 0 => some .noEvent
  | 1 => some .secondMark
  | 2 => some .zeroBit
  | 3 => some .oneBit
  | 4 => some .minuteMark
  | 5 => some .invalid
  | _ => none

/-! ## Timing windows: how the pulse train spells an event (R65 to R67) -/

open Config in
/-- The event of a falling edge by its gap (R65, R82). -/
def classifyFall (gap : Timestamp) : Event :=
  if gap.within SEC_LO SEC_HI then .secondMark
  else if gap.within MIN_LO MIN_HI then .minuteMark
  else .invalid

open Config in
/-- The event of a rising edge by its width (R66, R83). -/
def classifyRise (width : Timestamp) : Event :=
  if width.within ZERO_LO ZERO_HI then .zeroBit
  else if width.within ONE_LO ONE_HI then .oneBit
  else .invalid

/-! ## Operation words -/

/-- The units that read a frame word (R107 and its nine steps). The FRAME59 rows have no opcode bits: which
unit reads the frame is wiring, so it belongs to the format. -/
inductive FrameUnit where
  | complete
  | parityMinute | parityHour | parityDate
  | fieldMinute | fieldHour | fieldDay | fieldWeekday | fieldMonth | fieldYear
  deriving DecidableEq, Repr

/-- The "format" column of the table. The same low bits mean different rows in different formats, so a word
is read only together with its format (assumption log 5). -/
inductive Format where
  | event3
  | edge2
  | edge2Delta
  | frame59 (u : FrameUnit)
  deriving DecidableEq, Repr

/-- How many bits a word of the format has, its operand included: a 3-bit code; a 2-bit edge code and a
16-bit `ts_in` or `delta` above it; 59 slots. -/
def Format.width : Format → Nat
  | .event3 => 3
  | .edge2 => 18
  | .edge2Delta => 18
  | .frame59 _ => 59

/-- A word of one of the formats, bit 0 least significant. -/
structure OpWord where
  fmt  : Format
  bits : Nat
  deriving DecidableEq, Repr

/-- Why a word decodes to no operation. -/
inductive DecodeError where
  /-- A bit is set above the format's width. -/
  | strayBits
  /-- `delta` is not computed on a HOLD tick, so the table has no EDGE2+DELTA row with edge code 00 or 11 (R81). -/
  | noDeltaOnHold
  deriving DecidableEq, Repr

/-- The frame whose slot `i` is bit `i` of the word: the first bit received is the lowest (R45; log 6). -/
def Frame.ofBits (w : Nat) : Frame := Vector.ofFn (fun i : Fin 59 => w.testBit i.val)

/-- The word whose bit `i` is slot `i`. -/
def Frame.toBits (f : Frame) : Nat := f.toList.foldr (fun b acc => Nat.bit b acc) 0

/-- EVENT3 rows (R62, R63). The reserved codes are rows too; that they have no event is `Event.ofCode` and
their meaning in the machine, a refusal by name. -/
def decodeEvent3 (w : Nat) : Except DecodeError Instr :=
  match w with
  | 0 => .ok .noEvent
  | 1 => .ok .secondMark
  | 2 => .ok .zeroBit
  | 3 => .ok .oneBit
  | 4 => .ok .minuteMark
  | 5 => .ok .invalid
  | 6 => .ok .reservedEvent6
  | 7 => .ok .reservedEvent7
  | _ => .error .strayBits

/-- The operand above the two edge-code bits. -/
def edgeOperand (w : Nat) : Timestamp := BitVec.ofNat 16 (w / 4)

/-- EDGE2 rows: `lastLevel ++ level_in` selects the case (R61). -/
def decodeEdge2 (w : Nat) : Except DecodeError Instr :=
  if w ≥ 2 ^ 18 then .error .strayBits
  else match w % 4 with
    | 0 => .ok (.holdLow (edgeOperand w))
    | 1 => .ok (.rise (edgeOperand w))
    | 2 => .ok (.fall (edgeOperand w))
    | _ => .ok (.holdHigh (edgeOperand w))

/-- The EDGE2+DELTA row of a falling edge (R67). -/
def fallRow (d : Timestamp) : Instr :=
  match classifyFall d with
  | .secondMark => .fallSecondMark d
  | .minuteMark => .fallMinuteMark d
  | _ => .fallInvalid d

/-- The EDGE2+DELTA row of a rising edge (R67). -/
def riseRow (d : Timestamp) : Instr :=
  match classifyRise d with
  | .zeroBit => .riseZeroBit d
  | .oneBit => .riseOneBit d
  | _ => .riseInvalid d

/-- EDGE2+DELTA rows: the edge code and the window `delta` falls in (R61, R67). -/
def decodeEdge2Delta (w : Nat) : Except DecodeError Instr :=
  if w ≥ 2 ^ 18 then .error .strayBits
  else match w % 4 with
    | 1 => .ok (riseRow (edgeOperand w))
    | 2 => .ok (fallRow (edgeOperand w))
    | _ => .error .noDeltaOnHold

/-- The operation a unit performs on a frame word (R107). -/
def FrameUnit.instr : FrameUnit → Frame → Instr
  | .complete => .frame
  | .parityMinute => .parityMinute
  | .parityHour => .parityHour
  | .parityDate => .parityDate
  | .fieldMinute => .fieldMinute
  | .fieldHour => .fieldHour
  | .fieldDay => .fieldDay
  | .fieldWeekday => .fieldWeekday
  | .fieldMonth => .fieldMonth
  | .fieldYear => .fieldYear

/-- FRAME59 rows: every 59-bit word is a frame (R68). -/
def decodeFrame59 (u : FrameUnit) (w : Nat) : Except DecodeError Instr :=
  if w ≥ 2 ^ 59 then .error .strayBits else .ok (u.instr (Frame.ofBits w))

/-- The decoder: total on every word of every format. -/
def decode (w : OpWord) : Except DecodeError Instr :=
  match w.fmt with
  | .event3 => decodeEvent3 w.bits
  | .edge2 => decodeEdge2 w.bits
  | .edge2Delta => decodeEdge2Delta w.bits
  | .frame59 u => decodeFrame59 u w.bits

/-! ## Encoder -/

/-- A two-bit edge code with its operand above it. -/
def edgeWord (fmt : Format) (code : Nat) (operand : Timestamp) : OpWord :=
  ⟨fmt, code + 4 * operand.toNat⟩

/-- The word of an operation, from the same tables. -/
def encode : Instr → OpWord
  | .noEvent => ⟨.event3, 0⟩
  | .secondMark => ⟨.event3, 1⟩
  | .zeroBit => ⟨.event3, 2⟩
  | .oneBit => ⟨.event3, 3⟩
  | .minuteMark => ⟨.event3, 4⟩
  | .invalid => ⟨.event3, 5⟩
  | .reservedEvent6 => ⟨.event3, 6⟩
  | .reservedEvent7 => ⟨.event3, 7⟩
  | .holdLow ts => edgeWord .edge2 0 ts
  | .rise ts => edgeWord .edge2 1 ts
  | .fall ts => edgeWord .edge2 2 ts
  | .holdHigh ts => edgeWord .edge2 3 ts
  | .fallSecondMark d => edgeWord .edge2Delta 2 d
  | .fallMinuteMark d => edgeWord .edge2Delta 2 d
  | .fallInvalid d => edgeWord .edge2Delta 2 d
  | .riseZeroBit d => edgeWord .edge2Delta 1 d
  | .riseOneBit d => edgeWord .edge2Delta 1 d
  | .riseInvalid d => edgeWord .edge2Delta 1 d
  | .frame f => ⟨.frame59 .complete, f.toBits⟩
  | .parityMinute f => ⟨.frame59 .parityMinute, f.toBits⟩
  | .parityHour f => ⟨.frame59 .parityHour, f.toBits⟩
  | .parityDate f => ⟨.frame59 .parityDate, f.toBits⟩
  | .fieldMinute f => ⟨.frame59 .fieldMinute, f.toBits⟩
  | .fieldHour f => ⟨.frame59 .fieldHour, f.toBits⟩
  | .fieldDay f => ⟨.frame59 .fieldDay, f.toBits⟩
  | .fieldWeekday f => ⟨.frame59 .fieldWeekday, f.toBits⟩
  | .fieldMonth f => ⟨.frame59 .fieldMonth, f.toBits⟩
  | .fieldYear f => ⟨.frame59 .fieldYear, f.toBits⟩

/-! ## Words by their bit count alone -/

/-- The format a word of `nbits` bits is read in when nothing else says which (assumption log 5): 1 or 2 bits
an edge code, 3 to 8 an event code, up to 24 an edge code with its delta, more a frame. -/
def formatOf (nbits : Nat) : Option Format :=
  if nbits = 0 then none
  else if nbits ≤ 2 then some .edge2
  else if nbits ≤ 8 then some .event3
  else if nbits ≤ 24 then some .edge2Delta
  else some (.frame59 .complete)

/-- The operation the decoder reads from the `nbits`-bit word `w`. -/
def decodeTableWord (nbits w : Nat) : Option Instr :=
  match formatOf nbits with
  | none => none
  | some fmt => (decode ⟨fmt, w⟩).toOption

end Sys2Proof
end

