-- ==== Sys2Proof/Machine/State.lean ====
section
/-! DEFINITION. The state of one decoder core (R20), the stimulus its environment presents, the reasons a step stops, and the state after reset (R32). -/

namespace Sys2Proof.Machine

/-- What the environment presents at one step. `clock` is the hardware's own interface: the input ports at one
rising edge of `clk` (R9, R10, R190). The other three present a word at a sub-block boundary, as the
event-level programs of 95_test_vectors.md section 7 do (R75); the hardware's environment cannot (R53;
assumption log 2). -/
inductive Stimulus where
  | clock (rst tick level : Bool) (ts : Timestamp)
  | event (code : BitVec 3)
  | delta (level : Bool) (d : Timestamp)
  | unit (u : FrameUnit)
  deriving DecidableEq, Repr

/-- The registers of R20 and, last, the model's own list of what the environment will present. -/
structure State where
  /-- `level_in` at the most recent tick (R21). -/
  lastLevel  : Bool
  /-- `ts_in` at the most recent falling-edge tick (R22). -/
  tRef       : Timestamp
  /-- 59 one-bit slots (R23). -/
  frame      : Frame
  /-- The write cursor, 0 to 58 (R24). -/
  cursor     : Cursor
  /-- `true` = error condition present (R25). -/
  healthFlag : Bool
  /-- `DecodedTime` (R26). -/
  decoded    : DecodedTime
  /-- THE MODEL'S OWN FIELD, no register of the core: the inputs of a run, the next one first (R203). The
  core has no event queue (R34). -/
  stimulus   : List Stimulus
  deriving DecidableEq, Repr

/-- Nothing faults: no input and no state makes a tick have no successor state (R179;
93_implementation_defined.md part 1). The type has no constructor. -/
inductive Fault where
  deriving DecidableEq, Repr

/-- Why a step gives no meaning. -/
inductive Refusal where
  /-- Raised by `exec` for an operation without a meaning; no arm raises it. Safe. -/
  | notModelled (mnemonic : String)
  /-- Raised by the two reserved event codes, which have no semantics and are refused (R63). Safe. -/
  | reservedEventCode (code : BitVec 3)
  /-- Raised by `step` on a boundary word that decodes to no row. Safe: no clock edge raises it. -/
  | undecodable (why : DecodeError)
  deriving DecidableEq, Repr

/-- Every register at the reset value of R32; the environment has presented nothing. -/
def State.reset : State where
  lastLevel  := false
  tRef       := 0
  frame      := Vector.replicate 59 false
  cursor     := 0
  healthFlag := true
  decoded    := { year := 2000, month := 1, day := 1, weekday := 1, hour := 0, minute := 0 }
  stimulus   := []

end Sys2Proof.Machine
end

