-- ==== Sys2Proof/Machine/Operands.lean ====
section
/-! DEFINITION. Computed operands: the time difference, the edge code, reads of the frame buffer, BCD field assembly, the six field values. -/

namespace Sys2Proof.Machine

/-- `(ts_in - tRef) mod 2^TSW`, the gap of a falling edge and the width of a rising edge (R64). -/
def deltaOf (ts : Timestamp) (s : State) : Timestamp := ts - s.tRef

/-- The two-bit edge code `lastLevel ++ level_in`, stored level in bit 1 (R61). -/
def edgeCode (lastLevel level : Bool) : Nat := 2 * lastLevel.toNat + level.toNat

/-- `MemRead(addr, n)`: slots `addr` to `addr + n - 1` in index order (00_scope.md section 8, R43). -/
def memRead (f : Frame) (addr n : Nat) : List Bool := (f.toList.drop addr).take n

/-- `Decode(lo, weights)`: the weighted sum of the slots from `lo` on (R69, R130). No digit is checked (R72). -/
def fieldSum (f : Frame) (lo : Nat) (weights : List Nat) : Nat :=
  ((weights.zip (memRead f lo weights.length)).map (fun p => p.1 * p.2.toNat)).sum

/-- R131, slots 21 to 27. -/
def minuteOf (f : Frame) : Nat := fieldSum f 21 [1, 2, 4, 8, 10, 20, 40]

/-- R132, slots 29 to 34. -/
def hourOf (f : Frame) : Nat := fieldSum f 29 [1, 2, 4, 8, 10, 20]

/-- R133, slots 36 to 41. -/
def dayOf (f : Frame) : Nat := fieldSum f 36 [1, 2, 4, 8, 10, 20]

/-- R134, slots 42 to 44. -/
def weekdayOf (f : Frame) : Nat := fieldSum f 42 [1, 2, 4]

/-- R135, slots 45 to 49. -/
def monthOf (f : Frame) : Nat := fieldSum f 45 [1, 2, 4, 8, 10]

/-- R136, slots 50 to 57, with the year base added after the sum (R77). -/
def yearOf (f : Frame) : Nat := fieldSum f 50 [1, 2, 4, 8, 10, 20, 40, 80] + Config.YEAR_BASE

/-- The six decoded fields at their register widths (R26, R107 step 10). -/
def decodedOf (f : Frame) : DecodedTime where
  year    := BitVec.ofNat 12 (yearOf f)
  month   := BitVec.ofNat 4 (monthOf f)
  day     := BitVec.ofNat 5 (dayOf f)
  weekday := BitVec.ofNat 3 (weekdayOf f)
  hour    := BitVec.ofNat 5 (hourOf f)
  minute  := BitVec.ofNat 6 (minuteOf f)

end Sys2Proof.Machine
end

