-- ==== Sys2Proof/Machine/Flags.lean ====
section
/-! DEFINITION. The one status flag, `healthFlag`, and the even-parity XOR trees that decide it. -/

namespace Sys2Proof.Machine

/-- `healthFlag <- 1` (R25). -/
def setHealth (s : State) : State := { s with healthFlag := true }

/-- `healthFlag <- 0`, by the commit alone (R25, R180). -/
def clearHealth (s : State) : State := { s with healthFlag := false }

/-- `Parity(a, b)`: the exclusive-or of slots `a` to `b`, `true` when the group holds an odd number of ones (R120). -/
def parity (f : Frame) (a b : Nat) : Bool := (memRead f a (b + 1 - a)).foldl xor false

end Sys2Proof.Machine
end

