-- ==== Sys2Proof/Machine/Ops.lean ====
section
/-! DEFINITION. The named operations every meaning is made of: the outcome labels, the frame buffer's write port, the cursor, raising an error (this hardware's whole exception entry), and the commit (the only return from the error condition). -/

namespace Sys2Proof.Machine

/-- The fourteen outcome labels of a tick (R171). A label is not state and not a port. -/
inductive TickOutcome where
  | okNone
  | commit
  | invalidClassification
  | frameErrorOverflow
  | frameErrorPremature
  | parityErrorMinute | parityErrorHour | parityErrorDate
  | rangeErrorMinute | rangeErrorHour | rangeErrorDay | rangeErrorWeekday | rangeErrorMonth | rangeErrorYear
  deriving DecidableEq, Repr

/-- The label's number in R171's table. -/
def TickOutcome.number : TickOutcome → Nat
  | .okNone => 0
  | .commit => 1
  | .invalidClassification => 2
  | .frameErrorOverflow => 3
  | .frameErrorPremature => 4
  | .parityErrorMinute => 5
  | .parityErrorHour => 6
  | .parityErrorDate => 7
  | .rangeErrorMinute => 8
  | .rangeErrorHour => 9
  | .rangeErrorDay => 10
  | .rangeErrorWeekday => 11
  | .rangeErrorMonth => 12
  | .rangeErrorYear => 13

/-- `MemWrite(cursor, 1, b)`, the only store the hardware performs (R42). -/
def writeSlot (b : Bool) (s : State) : State :=
  { s with frame := s.frame.set s.cursor.val b s.cursor.isLt }

/-- `cursor <- target`. -/
def setCursor (target : Cursor) (s : State) : State := { s with cursor := target }

/-- `raise e`: the tick ends with outcome `e` and `healthFlag <- 1`. Nothing is saved, no mode changes and
control goes nowhere (R178; 00_scope.md section 8). -/
def raise (e : TickOutcome) (s : State) : TickOutcome × State := (e, setHealth s)

/-- `cursor <- 0 ; raise e`: the frame is logically discarded; no slot changes (R30, R52, R173 to R176). -/
def discard (e : TickOutcome) (s : State) : TickOutcome × State := raise e (setCursor 0 s)

/-- Step 10: all six fields at once, `healthFlag <- 0`, `cursor <- 0` (R138). `LocalTime` needs no action (R29). -/
def commit (t : DecodedTime) (s : State) : TickOutcome × State :=
  (.commit, clearHealth (setCursor 0 { s with decoded := t }))

/-- One check of frame completion on its own: a failure discards the frame, a pass changes nothing (R107). -/
def runCheck (check : Option TickOutcome) (s : State) : TickOutcome × State :=
  match check with
  | some e => discard e s
  | none => (.okNone, s)

/-- Every field within its range of R26. -/
def inRange (t : DecodedTime) : Bool :=
  decide (2000 ≤ t.year.toNat ∧ t.year.toNat ≤ 2099) &&
  decide (1 ≤ t.month.toNat ∧ t.month.toNat ≤ 12) &&
  decide (1 ≤ t.day.toNat ∧ t.day.toNat ≤ 31) &&
  decide (1 ≤ t.weekday.toNat ∧ t.weekday.toNat ≤ 7) &&
  decide (t.hour.toNat ≤ 23) &&
  decide (t.minute.toNat ≤ 59)

/-- `rst = 1` at a clock edge: every register takes its reset value (R190). What the environment will present
next is not the core's to reset. -/
def resetRegisters (s : State) : State := { State.reset with stimulus := s.stimulus }

/-- The environment has presented the next input. -/
def consume (s : State) : State := { s with stimulus := s.stimulus.tail }

end Sys2Proof.Machine
end

