-- ==== Sys2Proof/Machine/Completion.lean ====
section
/-! DEFINITION. Frame completion: the parity validator, the field decoder with its range checks, the commit, and the meanings of the FRAME59 rows. -/

namespace Sys2Proof.Machine

/-! ## The nine checks: `none` is a pass -/

/-- Step 1, slots 21 to 28 (R121). -/
def checkParityMinute (f : Frame) : Option TickOutcome :=
  if parity f 21 28 then some .parityErrorMinute else none

/-- Step 2, slots 29 to 35 (R122). -/
def checkParityHour (f : Frame) : Option TickOutcome :=
  if parity f 29 35 then some .parityErrorHour else none

/-- Step 3, slots 36 to 58 (R123). -/
def checkParityDate (f : Frame) : Option TickOutcome :=
  if parity f 36 58 then some .parityErrorDate else none

/-- Step 4 (R131). -/
def checkMinute (f : Frame) : Option TickOutcome :=
  if minuteOf f > 59 then some .rangeErrorMinute else none

/-- Step 5 (R132). -/
def checkHour (f : Frame) : Option TickOutcome :=
  if hourOf f > 23 then some .rangeErrorHour else none

/-- Step 6 (R133). -/
def checkDay (f : Frame) : Option TickOutcome :=
  if dayOf f > 31 ∨ dayOf f = 0 then some .rangeErrorDay else none

/-- Step 7 (R134). `> 7` cannot be true of three slots; it is kept because the source states it
(93_implementation_defined.md U9). -/
def checkWeekday (f : Frame) : Option TickOutcome :=
  if weekdayOf f > 7 ∨ weekdayOf f = 0 then some .rangeErrorWeekday else none

/-- Step 8 (R135). -/
def checkMonth (f : Frame) : Option TickOutcome :=
  if monthOf f > 12 ∨ monthOf f = 0 then some .rangeErrorMonth else none

/-- Step 9 (R136). -/
def checkYear (f : Frame) : Option TickOutcome :=
  if yearOf f > 2099 then some .rangeErrorYear else none

/-- The first failing step in the source's order names the outcome (R107, R124, R137, R177). -/
def firstFailure (f : Frame) : Option TickOutcome :=
  checkParityMinute f <|> checkParityHour f <|> checkParityDate f <|>
  checkMinute f <|> checkHour f <|> checkDay f <|> checkWeekday f <|> checkMonth f <|> checkYear f

/-- `Complete()` on the frame word `f` (R107): the first failure discards, otherwise the commit (R138, R139). -/
def complete (f : Frame) (s : State) : TickOutcome × State :=
  match firstFailure f with
  | some e => discard e s
  | none => commit (decodedOf f) s

/-! ## The FRAME59 rows. The operand is the frame word the unit reads; no row writes a slot. -/

/-- FRAME (R107). -/
def execFrame (f : Frame) (s : State) : Host.Outcome State Fault Refusal := .next (complete f s).2

/-- PARITY_MINUTE (R121). -/
def execParityMinute (f : Frame) (s : State) : Host.Outcome State Fault Refusal :=
  .next (runCheck (checkParityMinute f) s).2

/-- PARITY_HOUR (R122). -/
def execParityHour (f : Frame) (s : State) : Host.Outcome State Fault Refusal :=
  .next (runCheck (checkParityHour f) s).2

/-- PARITY_DATE (R123). -/
def execParityDate (f : Frame) (s : State) : Host.Outcome State Fault Refusal :=
  .next (runCheck (checkParityDate f) s).2

/-- FIELD_MINUTE (R131). -/
def execFieldMinute (f : Frame) (s : State) : Host.Outcome State Fault Refusal :=
  .next (runCheck (checkMinute f) s).2

/-- FIELD_HOUR (R132). -/
def execFieldHour (f : Frame) (s : State) : Host.Outcome State Fault Refusal :=
  .next (runCheck (checkHour f) s).2

/-- FIELD_DAY (R133). -/
def execFieldDay (f : Frame) (s : State) : Host.Outcome State Fault Refusal :=
  .next (runCheck (checkDay f) s).2

/-- FIELD_WEEKDAY (R134). -/
def execFieldWeekday (f : Frame) (s : State) : Host.Outcome State Fault Refusal :=
  .next (runCheck (checkWeekday f) s).2

/-- FIELD_MONTH (R135). -/
def execFieldMonth (f : Frame) (s : State) : Host.Outcome State Fault Refusal :=
  .next (runCheck (checkMonth f) s).2

/-- FIELD_YEAR (R136). -/
def execFieldYear (f : Frame) (s : State) : Host.Outcome State Fault Refusal :=
  .next (runCheck (checkYear f) s).2

end Sys2Proof.Machine
end

