-- ==== Sys2Proof/Machine/Assembler.lean ====
section
/-! DEFINITION. The frame assembler: `Process(ev)` on each of the six events (R100), and the meanings of the EVENT3 rows. -/

namespace Sys2Proof.Machine

/-- R101: no state change. -/
def processNoEvent (s : State) : TickOutcome × State := (.okNone, s)

/-- R102: the cursor advances, or overflows to 0 with an error. -/
def processSecondMark (s : State) : TickOutcome × State :=
  if h : s.cursor.val + 1 < 59 then (.okNone, setCursor ⟨s.cursor.val + 1, h⟩ s)
  else discard .frameErrorOverflow s

/-- R103. -/
def processZeroBit (s : State) : TickOutcome × State := (.okNone, writeSlot false s)

/-- R104. -/
def processOneBit (s : State) : TickOutcome × State := (.okNone, writeSlot true s)

/-- R105: frame completion at the last slot, otherwise a premature minute mark. -/
def processMinuteMark (s : State) : TickOutcome × State :=
  if s.cursor.val = Config.CURSOR_MAX then complete s.frame s else discard .frameErrorPremature s

/-- R106: the flag and nothing else. -/
def processInvalid (s : State) : TickOutcome × State := raise .invalidClassification s

/-- `Process(ev)` (R100). -/
def process (ev : Event) (s : State) : TickOutcome × State :=
  match ev with
  | .noEvent => processNoEvent s
  | .secondMark => processSecondMark s
  | .zeroBit => processZeroBit s
  | .oneBit => processOneBit s
  | .minuteMark => processMinuteMark s
  | .invalid => processInvalid s

/-- NoEvent (R101). -/
def execNoEvent (s : State) : Host.Outcome State Fault Refusal := .next (processNoEvent s).2

/-- SecondMark (R102). -/
def execSecondMark (s : State) : Host.Outcome State Fault Refusal := .next (processSecondMark s).2

/-- ZeroBit (R103). -/
def execZeroBit (s : State) : Host.Outcome State Fault Refusal := .next (processZeroBit s).2

/-- OneBit (R104). -/
def execOneBit (s : State) : Host.Outcome State Fault Refusal := .next (processOneBit s).2

/-- MinuteMark (R105). -/
def execMinuteMark (s : State) : Host.Outcome State Fault Refusal := .next (processMinuteMark s).2

/-- Invalid (R106). -/
def execInvalid (s : State) : Host.Outcome State Fault Refusal := .next (processInvalid s).2

/-- RESERVED_EVENT_6: reserved, no semantics, refused (R63). -/
def execReservedEvent6 (_ : State) : Host.Outcome State Fault Refusal := .refused (.reservedEventCode 6)

/-- RESERVED_EVENT_7: reserved, no semantics, refused (R63). -/
def execReservedEvent7 (_ : State) : Host.Outcome State Fault Refusal := .refused (.reservedEventCode 7)

end Sys2Proof.Machine
end

