-- ==== Sys2Proof/Machine/Sampler.lean ====
section
/-! DEFINITION. The signal sampler: the register updates of R84 and the meanings of the EDGE2 and EDGE2+DELTA rows. An edge row is one whole tick, the sampler's case and then `Process` of the event it yields, because the event is consumed in the tick that produces it and nothing holds it (R10, R50, R34). -/

namespace Sys2Proof.Machine

/-- The registers after a HOLD tick (R81, R84). -/
def sampleHold (level : Bool) (s : State) : State := { s with lastLevel := level }

/-- The registers after a FALL tick, whatever the classification (R82, R84). -/
def sampleFall (ts : Timestamp) (s : State) : State := { s with lastLevel := false, tRef := ts }

/-- The registers after a RISE tick; `tRef` is not written (R83, R84). -/
def sampleRise (s : State) : State := { s with lastLevel := true }

/-- A HOLD tick: `NoEvent`; `ts_in` is not used (R81). -/
def tickHold (level : Bool) (s : State) : TickOutcome × State := process .noEvent (sampleHold level s)

/-- A FALL tick: the gap is taken from the registers before the tick (R82, R84). -/
def tickFall (ts : Timestamp) (s : State) : TickOutcome × State :=
  process (classifyFall (deltaOf ts s)) (sampleFall ts s)

/-- A RISE tick (R83). -/
def tickRise (ts : Timestamp) (s : State) : TickOutcome × State :=
  process (classifyRise (deltaOf ts s)) (sampleRise s)

/-- A FALL tick whose gap `d` is already classified: `ts_in = tRef + d` (R64, R82). -/
def tickFallAs (ev : Event) (d : Timestamp) (s : State) : TickOutcome × State :=
  process ev (sampleFall (s.tRef + d) s)

/-- A RISE tick whose width is already classified (R83). -/
def tickRiseAs (ev : Event) (s : State) : TickOutcome × State := process ev (sampleRise s)

/-- HOLD_LOW, edge code 00 (R81). -/
def execHoldLow (_ts : Timestamp) (s : State) : Host.Outcome State Fault Refusal := .next (tickHold false s).2

/-- HOLD_HIGH, edge code 11 (R81). -/
def execHoldHigh (_ts : Timestamp) (s : State) : Host.Outcome State Fault Refusal := .next (tickHold true s).2

/-- RISE, edge code 01 (R83). -/
def execRise (ts : Timestamp) (s : State) : Host.Outcome State Fault Refusal := .next (tickRise ts s).2

/-- FALL, edge code 10 (R82). -/
def execFall (ts : Timestamp) (s : State) : Host.Outcome State Fault Refusal := .next (tickFall ts s).2

/-- FALL_SecondMark: edge code 10, gap in [900, 1100] (R65, R82). -/
def execFallSecondMark (d : Timestamp) (s : State) : Host.Outcome State Fault Refusal :=
  .next (tickFallAs .secondMark d s).2

/-- FALL_MinuteMark: edge code 10, gap in [1900, 2100] (R65, R82). -/
def execFallMinuteMark (d : Timestamp) (s : State) : Host.Outcome State Fault Refusal :=
  .next (tickFallAs .minuteMark d s).2

/-- FALL_Invalid: edge code 10, any other gap; `tRef` still moves (R65, R82, R84). -/
def execFallInvalid (d : Timestamp) (s : State) : Host.Outcome State Fault Refusal :=
  .next (tickFallAs .invalid d s).2

/-- RISE_ZeroBit: edge code 01, width in [70, 130] (R66, R83). -/
def execRiseZeroBit (_d : Timestamp) (s : State) : Host.Outcome State Fault Refusal :=
  .next (tickRiseAs .zeroBit s).2

/-- RISE_OneBit: edge code 01, width in [170, 230] (R66, R83). -/
def execRiseOneBit (_d : Timestamp) (s : State) : Host.Outcome State Fault Refusal :=
  .next (tickRiseAs .oneBit s).2

/-- RISE_Invalid: edge code 01, any other width (R66, R83). -/
def execRiseInvalid (_d : Timestamp) (s : State) : Host.Outcome State Fault Refusal :=
  .next (tickRiseAs .invalid s).2

end Sys2Proof.Machine
end

