-- ==== Sys2Proof/Machine/Dispatch.lean ====
section
/-! DEFINITION. Which meaning each operation has: one arm per constructor. -/

namespace Sys2Proof.Machine

def exec (i : Instr) (s : State) : Host.Outcome State Fault Refusal :=
  match i with
  | .noEvent => Sys2Proof.Machine.execNoEvent s
  | .secondMark => Sys2Proof.Machine.execSecondMark s
  | .zeroBit => Sys2Proof.Machine.execZeroBit s
  | .oneBit => Sys2Proof.Machine.execOneBit s
  | .minuteMark => Sys2Proof.Machine.execMinuteMark s
  | .invalid => Sys2Proof.Machine.execInvalid s
  | .reservedEvent6 => Sys2Proof.Machine.execReservedEvent6 s
  | .reservedEvent7 => Sys2Proof.Machine.execReservedEvent7 s
  | .holdLow ts => Sys2Proof.Machine.execHoldLow ts s
  | .rise ts => Sys2Proof.Machine.execRise ts s
  | .fall ts => Sys2Proof.Machine.execFall ts s
  | .holdHigh ts => Sys2Proof.Machine.execHoldHigh ts s
  | .fallSecondMark d => Sys2Proof.Machine.execFallSecondMark d s
  | .fallMinuteMark d => Sys2Proof.Machine.execFallMinuteMark d s
  | .fallInvalid d => Sys2Proof.Machine.execFallInvalid d s
  | .riseZeroBit d => Sys2Proof.Machine.execRiseZeroBit d s
  | .riseOneBit d => Sys2Proof.Machine.execRiseOneBit d s
  | .riseInvalid d => Sys2Proof.Machine.execRiseInvalid d s
  | .frame f => Sys2Proof.Machine.execFrame f s
  | .parityMinute f => Sys2Proof.Machine.execParityMinute f s
  | .parityHour f => Sys2Proof.Machine.execParityHour f s
  | .parityDate f => Sys2Proof.Machine.execParityDate f s
  | .fieldMinute f => Sys2Proof.Machine.execFieldMinute f s
  | .fieldHour f => Sys2Proof.Machine.execFieldHour f s
  | .fieldDay f => Sys2Proof.Machine.execFieldDay f s
  | .fieldWeekday f => Sys2Proof.Machine.execFieldWeekday f s
  | .fieldMonth f => Sys2Proof.Machine.execFieldMonth f s
  | .fieldYear f => Sys2Proof.Machine.execFieldYear f s

end Sys2Proof.Machine
end

