-- ==== Sys2Proof/Machine/Fetch.lean ====
section
/-! DEFINITION. What the next step runs: the environment's next input turned into an operation word, and placing a word so that the next step runs it. -/

namespace Sys2Proof.Machine

/-- What a step has to do. -/
inductive Fetched where
  /-- No tick: `tick = 0`, or nothing presented. No state changes (R10, R203). -/
  | idle
  /-- `rst = 1`, which overrides the tick (R190, R177 (c)). -/
  | reset
  | word (w : OpWord)
  deriving DecidableEq, Repr

/-- The next input and the registers that complete it: the stored level makes the edge code (R61), the frame
buffer makes the frame word (R43). -/
def fetch (s : State) : Fetched :=
  match s.stimulus with
  | [] => .idle
  | .clock true _ _ _ :: _ => .reset
  | .clock false false _ _ :: _ => .idle
  | .clock false true level ts :: _ => .word (edgeWord .edge2 (edgeCode s.lastLevel level) ts)
  | .event code :: _ => .word ⟨.event3, code.toNat⟩
  | .delta level d :: _ => .word (edgeWord .edge2Delta (edgeCode s.lastLevel level) d)
  | .unit u :: _ => .word ⟨.frame59 u, s.frame.toBits⟩

/-- `s` with the word `w` where the next step finds it: the input, and the register that completes it. An
edge code's bit 1 is the stored level; a frame word is the frame buffer's content (assumption log 7). -/
def placeWord (w : OpWord) (s : State) : State :=
  match w.fmt with
  | .event3 => { s with stimulus := .event (BitVec.ofNat 3 w.bits) :: s.stimulus.tail }
  | .edge2 =>
    { s with lastLevel := w.bits.testBit 1,
             stimulus := .clock false true (w.bits.testBit 0) (edgeOperand w.bits) :: s.stimulus.tail }
  | .edge2Delta =>
    { s with lastLevel := w.bits.testBit 1,
             stimulus := .delta (w.bits.testBit 0) (edgeOperand w.bits) :: s.stimulus.tail }
  | .frame59 u => { s with frame := Frame.ofBits w.bits, stimulus := .unit u :: s.stimulus.tail }

/-- `placeWord` for a word known by its bit count alone. -/
def placeTableWord (nbits w : Nat) (s : State) : State :=
  match formatOf nbits with
  | some fmt => placeWord ⟨fmt, w⟩ s
  | none => s

end Sys2Proof.Machine
end

