-- ==== Sys2Proof/Machine/Step.lean ====
section
/-! DEFINITION. One step: fetch, decode, execute. -/

namespace Sys2Proof.Machine

/-- One step takes the next input. A tick completes in its own step (R10, R201). -/
def step (s : State) : Host.Outcome State Fault Refusal :=
  match fetch s with
  | .idle => .next (consume s)
  | .reset => .next (resetRegisters (consume s))
  | .word w =>
    match decode w with
    | .ok i => exec i (consume s)
    | .error e => .refused (.undecodable e)

/-- `s` with the `nbits`-bit word `w` placed so that the very next step runs it. -/
def State.withFetchWord (s : State) (nbits w : Nat) : State := placeTableWord nbits w s

end Sys2Proof.Machine
end

