-- ==== Sys2Proof/Machine/Projector.lean ====
section
/-! DEFINITION. The time-zone projector: the pure function from `DecodedTime` to `LocalTime` (R150 to R164). -/

namespace Sys2Proof.Machine

/-- The leap-year predicate, the source's full expression (R159). -/
def leap (y : Nat) : Bool := y % 4 == 0 && (y % 100 != 0 || y % 400 == 0)

/-- The entries of the "standard" days-in-month table that R158 looks up. They come from general knowledge
(the Gregorian calendar: 93_implementation_defined.md G1, 92_eei_decisions.md D16). February and December
are never looked up here (R156, R157). -/
def daysIn (month : Nat) : Option (BitVec 5) :=
  match month with
  | 1 => some 31
  | 3 => some 31
  | 4 => some 30
  | 5 => some 31
  | 6 => some 30
  | 7 => some 31
  | 8 => some 31
  | 9 => some 30
  | 10 => some 31
  | 11 => some 30
  | _ => none

/-- The weekday before (R153): Monday goes back to Sunday. -/
def weekdayBefore (w : BitVec 3) : BitVec 3 := if w = 1 then 7 else w - 1

/-- The date and weekday one day back, hour and minute as given (R153 to R158). -/
def dayBefore (t : DecodedTime) : LocalTime :=
  let t := { t with weekday := weekdayBefore t.weekday }
  if 2 ≤ t.day.toNat then { t with day := t.day - 1 }
  else if t.month = 1 then { t with day := 31, month := 12, year := t.year - 1 }
  else if t.month = 3 then { t with day := if leap t.year.toNat then 29 else 28, month := 2 }
  else match daysIn (t.month.toNat - 1) with
    | some d => { t with day := d, month := t.month - 1 }
    | none => Config.projectOutOfRange t

/-- R164 on a time within its legal ranges: exactly 6 hours back, in every season (R163); the minute passes
through (R160). -/
def projectInRange (t : DecodedTime) : LocalTime :=
  if 6 ≤ t.hour.toNat then { t with hour := t.hour - 6 }
  else { dayBefore t with hour := t.hour + 18 }

/-- `Project` (R164). The source defines nothing outside the legal ranges of R26, which the hardware never
leaves (R27); there the value is free (93_implementation_defined.md U5). -/
def project (t : DecodedTime) : LocalTime :=
  if inRange t then projectInRange t else Config.projectOutOfRange t

end Sys2Proof.Machine
end

