-- ==== Sys2Proof/Machine/Ports.lean ====
section
/-! DEFINITION. The output ports of R9: those driven by state alone, and those valid during a tick, computed from its input and the state before it (R51). -/

namespace Sys2Proof.Machine

/-- The outputs that are functions of state alone, always driven (R9, R51). -/
structure StatePorts where
  health_flag : Bool
  dt : DecodedTime
  lt : LocalTime
  deriving DecidableEq, Repr

/-- `health_flag`, `dt_*` and `lt_*`; `lt_*` is combinational in `decoded` (R29, R186). -/
def statePorts (s : State) : StatePorts := { health_flag := s.healthFlag, dt := s.decoded, lt := project s.decoded }

/-- The operation the next step runs, where it runs one. -/
def nextInstr (s : State) : Option Instr :=
  match fetch s with
  | .word w => (decode w).toOption
  | .idle => none
  | .reset => none

/-- The event an operation carries: an edge row's classification (R81 to R83), an event row itself. A unit of
frame completion carries none. -/
def eventOf (i : Instr) (s : State) : Option Event :=
  match i with
  | .noEvent => some .noEvent
  | .secondMark => some .secondMark
  | .zeroBit => some .zeroBit
  | .oneBit => some .oneBit
  | .minuteMark => some .minuteMark
  | .invalid => some .invalid
  | .reservedEvent6 => none
  | .reservedEvent7 => none
  | .holdLow _ => some .noEvent
  | .rise ts => some (classifyRise (deltaOf ts s))
  | .fall ts => some (classifyFall (deltaOf ts s))
  | .holdHigh _ => some .noEvent
  | .fallSecondMark _ => some .secondMark
  | .fallMinuteMark _ => some .minuteMark
  | .fallInvalid _ => some .invalid
  | .riseZeroBit _ => some .zeroBit
  | .riseOneBit _ => some .oneBit
  | .riseInvalid _ => some .invalid
  | .frame _ => none
  | .parityMinute _ => none
  | .parityHour _ => none
  | .parityDate _ => none
  | .fieldMinute _ => none
  | .fieldHour _ => none
  | .fieldDay _ => none
  | .fieldWeekday _ => none
  | .fieldMonth _ => none
  | .fieldYear _ => none

/-- The outcome label of an operation (R171); the reserved codes end in none. -/
def outcomeOf (i : Instr) (s : State) : Option TickOutcome :=
  match i with
  | .noEvent => some (processNoEvent s).1
  | .secondMark => some (processSecondMark s).1
  | .zeroBit => some (processZeroBit s).1
  | .oneBit => some (processOneBit s).1
  | .minuteMark => some (processMinuteMark s).1
  | .invalid => some (processInvalid s).1
  | .reservedEvent6 => none
  | .reservedEvent7 => none
  | .holdLow _ => some (tickHold false s).1
  | .rise ts => some (tickRise ts s).1
  | .fall ts => some (tickFall ts s).1
  | .holdHigh _ => some (tickHold true s).1
  | .fallSecondMark d => some (tickFallAs .secondMark d s).1
  | .fallMinuteMark d => some (tickFallAs .minuteMark d s).1
  | .fallInvalid d => some (tickFallAs .invalid d s).1
  | .riseZeroBit _ => some (tickRiseAs .zeroBit s).1
  | .riseOneBit _ => some (tickRiseAs .oneBit s).1
  | .riseInvalid _ => some (tickRiseAs .invalid s).1
  | .frame f => some (complete f s).1
  | .parityMinute f => some (runCheck (checkParityMinute f) s).1
  | .parityHour f => some (runCheck (checkParityHour f) s).1
  | .parityDate f => some (runCheck (checkParityDate f) s).1
  | .fieldMinute f => some (runCheck (checkMinute f) s).1
  | .fieldHour f => some (runCheck (checkHour f) s).1
  | .fieldDay f => some (runCheck (checkDay f) s).1
  | .fieldWeekday f => some (runCheck (checkWeekday f) s).1
  | .fieldMonth f => some (runCheck (checkMonth f) s).1
  | .fieldYear f => some (runCheck (checkYear f) s).1

/-- The event of the next step. -/
def nextEvent (s : State) : Option Event := (nextInstr s).bind (fun i => eventOf i s)

/-- The outcome label of the next step. -/
def nextOutcome (s : State) : Option TickOutcome := (nextInstr s).bind (fun i => outcomeOf i s)

/-- The port `event_out` (R62); `none` where it carries no meaning (R51). -/
def eventOut (s : State) : Option (BitVec 3) := (nextEvent s).map Event.code

/-- The port `live_strobe`: 1 when the tick's event is not `NoEvent` (R85), 0 at a reset edge (R190); `none`
where it carries no meaning (R51). -/
def liveStrobe (s : State) : Option Bool :=
  match fetch s with
  | .reset => some false
  | .idle => none
  | .word _ => (nextEvent s).map (fun e => e != .noEvent)

/-- The port `commit_strobe`: 1 during a commit (R138), 0 at a reset edge (R190); `none` where it carries no
meaning (R51). -/
def commitStrobe (s : State) : Option Bool :=
  match fetch s with
  | .reset => some false
  | .idle => none
  | .word _ => (nextOutcome s).map (fun o => o == .commit)

end Sys2Proof.Machine
end

