-- ==== Sys2Proof/Machine/Run.lean ====
section
/-! DEFINITION. The specification's own one-tick function, stimulus lists, and runs of operations (R10, R80, R203). -/

namespace Sys2Proof.Machine

/-- `Classify(level_in, ts_in)` word for word (R80): the event, and the sampler registers updated (R84). -/
def classify (level : Bool) (ts : Timestamp) (s : State) : Event × State :=
  if level = s.lastLevel then (.noEvent, { s with lastLevel := level })
  else if level = false then (classifyFall (ts - s.tRef), { s with lastLevel := level, tRef := ts })
  else (classifyRise (ts - s.tRef), { s with lastLevel := level })

/-- One tick `T(level, ts)`: the sampler operation, then the event-processing transition (R10). -/
def tick (level : Bool) (ts : Timestamp) (s : State) : TickOutcome × State :=
  process (classify level ts s).1 (classify level ts s).2

/-- The operations of `is` one after the other, stopping at the first that gives no next state. -/
def execAll (is : List Instr) (s : State) : Host.Outcome State Fault Refusal :=
  match is with
  | [] => .next s
  | i :: rest =>
    match exec i s with
    | .next t => execAll rest t
    | .fault e => .fault e
    | .refused e => .refused e

/-- `bit(0) = ZeroBit`, `bit(1) = OneBit` (95_test_vectors.md, "Feeding a frame"). -/
def bitEvent (b : Bool) : Instr := if b then .oneBit else .zeroBit

/-- The event stream that feeds a frame: its first bit, then a `SecondMark` before each further bit (R109). -/
def feed (f : Frame) : List Instr :=
  match f.toList with
  | [] => []
  | b :: rest => bitEvent b :: rest.flatMap (fun b => [.secondMark, bitEvent b])

/-- A run of ticks with the outputs of each: the state-driven ports after it and the tick-valid ports of it (R203). -/
def runTicks (ins : List (Bool × Timestamp)) (s : State) :
    List (Option (BitVec 3) × Option Bool × Option Bool × StatePorts) × State :=
  match ins with
  | [] => ([], s)
  | (level, ts) :: rest =>
    let s0 : State := { s with stimulus := [.clock false true level ts] }
    let t := (tick level ts s).2
    let r := runTicks rest t
    ((eventOut s0, liveStrobe s0, commitStrobe s0, statePorts t) :: r.1, r.2)

/-- The canonical slots of a value: units digit in four slots, then the tens digit, each least significant
first (R73). -/
def bcdSlots (n v : Nat) : List Bool :=
  (List.range n).map (fun k => if k < 4 then (v % 10).testBit k else (v / 10).testBit (k - 4))

/-- The parity bit that makes a group even (R73). -/
def parityBit (l : List Bool) : Bool := l.foldl xor false

/-- Slots 21 to 58 of the canonical frame of a time (R68, R73). -/
def canonicalSlots (t : DecodedTime) : List Bool :=
  let m := bcdSlots 7 t.minute.toNat
  let h := bcdSlots 6 t.hour.toNat
  let d := bcdSlots 6 t.day.toNat ++ bcdSlots 3 t.weekday.toNat ++ bcdSlots 5 t.month.toNat ++
    bcdSlots 8 (t.year.toNat - Config.YEAR_BASE)
  m ++ [parityBit m] ++ h ++ [parityBit h] ++ d ++ [parityBit d]

/-- A frame that spells `t` canonically, with any content `low` in slots 0 to 20 (R71, R73). -/
def canonicalFrame (low : Frame) (t : DecodedTime) : Frame :=
  Vector.ofFn (fun i : Fin 59 => if i.val < 21 then low[i] else (canonicalSlots t)[i.val - 21]?.getD false)

end Sys2Proof.Machine
end

