-- ==== Sys2Proof/Safety.lean ====
section
/-! DEFINITION. The invariant, which stimuli the hardware's own environment can present, and the terms claims are stated in: the frame read slot by slot, written from 30_encoding.md and not from the machine's own functions. -/

namespace Sys2Proof.Machine

/-- Every `DecodedTime` field is in range (R27). That the cursor is 0 to 58 (R24) is its type. -/
def State.Inv (s : State) : Prop := inRange s.decoded = true

/-- A clock edge: all that the environment of the hardware can present (R9, R53). -/
def Stimulus.isClock : Stimulus → Bool
  | .clock _ _ _ _ => true
  | .event _ => false
  | .delta _ _ => false
  | .unit _ => false

/-- A clock edge that changes no register while `lastLevel` is `level`: no tick (R10), or a HOLD tick (R81). -/
def Stimulus.quietAt (level : Bool) : Stimulus → Bool
  | .clock rst tick l _ => !rst && (!tick || l == level)
  | .event _ => false
  | .delta _ _ => false
  | .unit _ => false

/-- A run safe for `k` steps: none of them stops. -/
def safeFor (k : Nat) (s : State) : Prop := ∃ t, Sys2Proof.core.run k s = .next t

/-! ## The frame, slot by slot -/

/-- How many of the slots `a` to `b`, both ends included, hold a one (R70). -/
def ones (f : Frame) (a b : Nat) : Nat :=
  (List.finRange 59).countP (fun i => decide (a ≤ i.val) && decide (i.val ≤ b) && f[i])

/-- The six weighted sums of R68 and R131 to R136. -/
def specMinute (f : Frame) : Nat :=
  f[21].toNat + 2 * f[22].toNat + 4 * f[23].toNat + 8 * f[24].toNat + 10 * f[25].toNat + 20 * f[26].toNat +
    40 * f[27].toNat
def specHour (f : Frame) : Nat :=
  f[29].toNat + 2 * f[30].toNat + 4 * f[31].toNat + 8 * f[32].toNat + 10 * f[33].toNat + 20 * f[34].toNat
def specDay (f : Frame) : Nat :=
  f[36].toNat + 2 * f[37].toNat + 4 * f[38].toNat + 8 * f[39].toNat + 10 * f[40].toNat + 20 * f[41].toNat
def specWeekday (f : Frame) : Nat := f[42].toNat + 2 * f[43].toNat + 4 * f[44].toNat
def specMonth (f : Frame) : Nat :=
  f[45].toNat + 2 * f[46].toNat + 4 * f[47].toNat + 8 * f[48].toNat + 10 * f[49].toNat
def specYear (f : Frame) : Nat :=
  f[50].toNat + 2 * f[51].toNat + 4 * f[52].toNat + 8 * f[53].toNat + 10 * f[54].toNat + 20 * f[55].toNat +
    40 * f[56].toNat + 80 * f[57].toNat + 2000

/-- The three parity groups hold an even number of ones each (R70, R121 to R123). -/
structure ParityGood (f : Frame) : Prop where
  minute : ones f 21 28 % 2 = 0
  hour : ones f 29 35 % 2 = 0
  date : ones f 36 58 % 2 = 0

/-- The nine checks of frame completion pass (R107). -/
structure Passes (f : Frame) : Prop where
  parity : ParityGood f
  minute : specMinute f ≤ 59
  hour : specHour f ≤ 23
  day : 1 ≤ specDay f ∧ specDay f ≤ 31
  weekday : 1 ≤ specWeekday f ∧ specWeekday f ≤ 7
  month : 1 ≤ specMonth f ∧ specMonth f ≤ 12
  year : specYear f ≤ 2099

/-- The six registers of `d` hold the six sums of `f`. -/
structure Spells (f : Frame) (d : DecodedTime) : Prop where
  minute : d.minute.toNat = specMinute f
  hour : d.hour.toNat = specHour f
  day : d.day.toNat = specDay f
  weekday : d.weekday.toNat = specWeekday f
  month : d.month.toNat = specMonth f
  year : d.year.toNat = specYear f

/-- In `t` the slot at the cursor of `s` holds `b` and every other slot reads as in `s` (R42). -/
def SlotWritten (s t : State) (b : Bool) : Prop :=
  t.frame[s.cursor] = b ∧ ∀ j : Fin 59, j ≠ s.cursor → t.frame[j] = s.frame[j]

/-- A failed check's state: the frame logically discarded and the flag raised, nothing else (R178). -/
def discarded (s : State) : State := { s with cursor := 0, healthFlag := true }

/-- A commit's state: the six fields, the flag cleared, the cursor at 0, nothing else (R138, R178). -/
def committed (d : DecodedTime) (s : State) : State := { s with decoded := d, healthFlag := false, cursor := 0 }

/-! ## The Gregorian calendar, to state what six hours back means (general knowledge, as R158's table is) -/

def monthLength (y m : Nat) : Nat :=
  if m = 2 then (if leap y then 29 else 28) else if m = 4 ∨ m = 6 ∨ m = 9 ∨ m = 11 then 30 else 31

/-- The days from a fixed origin to the day `t` names. -/
def dayNumber (t : CivilTime) : Nat :=
  let y := t.year.toNat - 1
  365 * y + y / 4 - y / 100 + y / 400 +
    ((List.range (t.month.toNat - 1)).map (fun k => monthLength t.year.toNat (k + 1))).sum + t.day.toNat

/-- The hours from that origin. -/
def hourNumber (t : CivilTime) : Nat := 24 * dayNumber t + t.hour.toNat

/-- The day exists in its month. -/
def onCalendar (t : CivilTime) : Prop := 1 ≤ t.day.toNat ∧ t.day.toNat ≤ monthLength t.year.toNat t.month.toNat

end Sys2Proof.Machine
end

