-- ==== Sys2Proof/Certificates/Slice0/Obligations.lean ====
section
/-! DEFINITION. The statements for the provers. -/

open Sys2Proof Sys2Proof.Machine

/-! ## Reset -/

/-- R32: every register's value after reset, and the projection shown then. The values are the spec's own
decisions (D5 to D8), the projection its own inference (assumption log 1). -/
def Obligations.ResetValues : Prop :=
  State.reset.lastLevel = false ∧ State.reset.tRef = 0 ∧ (∀ i : Fin 59, State.reset.frame[i] = false) ∧
  State.reset.cursor = 0 ∧ State.reset.healthFlag = true ∧
  State.reset.decoded = { year := 2000, month := 1, day := 1, weekday := 1, hour := 0, minute := 0 } ∧
  project State.reset.decoded = { year := 1999, month := 12, day := 31, weekday := 7, hour := 18, minute := 0 }

/-- R190, the spec's own decision (D2): `rst = 1` gives every register its reset value whatever the other
inputs are, and both strobes are 0. That the inputs still to come stay is the model's (assumption log 12). -/
def Obligations.ResetEdgeOverridesTick : Prop :=
  ∀ (s : State) (tk level : Bool) (ts : Timestamp) (rest : List Stimulus),
    s.stimulus = .clock true tk level ts :: rest →
      step s = .next { State.reset with stimulus := rest } ∧ liveStrobe s = some false ∧ commitStrobe s = some false

/-- R10, R203: without a tick no register changes (D1). An empty list of inputs is no tick: the model's
(assumption log 7). -/
def Obligations.NoTickNoChange : Prop :=
  ∀ s : State,
    (∀ (level : Bool) (ts : Timestamp) (rest : List Stimulus),
      s.stimulus = .clock false false level ts :: rest → step s = .next { s with stimulus := rest }) ∧
    (s.stimulus = [] → step s = .next s)

/-! ## The six events -/

/-- R101. -/
def Obligations.NoEventChangesNothing : Prop :=
  ∀ s : State, exec .noEvent s = .next s ∧ outcomeOf .noEvent s = some .okNone

/-- R102: the cursor advances by one, or from 58 returns to 0 with the flag raised; nothing else changes. -/
def Obligations.SecondMarkAdvancesOrOverflows : Prop :=
  ∀ s : State,
    (∀ c : Cursor, c.val = s.cursor.val + 1 →
      exec .secondMark s = .next { s with cursor := c } ∧ outcomeOf .secondMark s = some .okNone) ∧
    (s.cursor.val = 58 →
      exec .secondMark s = .next { s with cursor := 0, healthFlag := true } ∧
        outcomeOf .secondMark s = some .frameErrorOverflow)

/-- R103, R104: the slot at the cursor takes the bit; every other slot and every other register keep theirs. -/
def Obligations.BitEventsWriteTheCursorSlot : Prop :=
  ∀ s : State,
    (∃ t, exec .zeroBit s = .next t ∧ SlotWritten s t false ∧ t = { s with frame := t.frame } ∧
      outcomeOf .zeroBit s = some .okNone) ∧
    (∃ t, exec .oneBit s = .next t ∧ SlotWritten s t true ∧ t = { s with frame := t.frame } ∧
      outcomeOf .oneBit s = some .okNone)

/-- R105, R174: premature unless the cursor is 58; at 58, frame completion on the frame buffer. -/
def Obligations.MinuteMarkEndsTheFrame : Prop :=
  ∀ s : State,
    (s.cursor.val ≠ 58 → exec .minuteMark s = .next { s with cursor := 0, healthFlag := true } ∧
      outcomeOf .minuteMark s = some .frameErrorPremature) ∧
    (s.cursor.val = 58 → ∀ d, Passes s.frame → Spells s.frame d →
      exec .minuteMark s = .next { s with decoded := d, healthFlag := false, cursor := 0 } ∧
      outcomeOf .minuteMark s = some .commit) ∧
    (s.cursor.val = 58 → ¬ Passes s.frame →
      exec .minuteMark s = .next { s with cursor := 0, healthFlag := true } ∧
      outcomeOf .minuteMark s ≠ some .commit) ∧
    (s.cursor.val = 58 → exec .minuteMark s = exec (.frame s.frame) s ∧
      outcomeOf .minuteMark s = outcomeOf (.frame s.frame) s)

/-- R106: the flag and nothing else. -/
def Obligations.InvalidRaisesTheFlagOnly : Prop :=
  ∀ s : State, exec .invalid s = .next { s with healthFlag := true } ∧
    outcomeOf .invalid s = some .invalidClassification

/-- R63, the spec's own decision (D11) and inference: codes 6 and 7 have no event, no event has them, and an
operation that carries one is refused. -/
def Obligations.ReservedCodesRefused : Prop :=
  (∀ s : State, exec .reservedEvent6 s = .refused (.reservedEventCode 6)) ∧
  (∀ s : State, exec .reservedEvent7 s = .refused (.reservedEventCode 7)) ∧
  Event.ofCode 6 = none ∧ Event.ofCode 7 = none ∧
  (∀ (level : Bool) (ts : Timestamp) (s : State),
    (classify level ts s).1.code ≠ 6 ∧ (classify level ts s).1.code ≠ 7)

/-- R62: the six codes, which are the spec's own decision (D11), and a code names at most one event. -/
def Obligations.EventCodesAsListed : Prop :=
  (Event.noEvent.code = 0 ∧ Event.secondMark.code = 1 ∧ Event.zeroBit.code = 2 ∧ Event.oneBit.code = 3 ∧
    Event.minuteMark.code = 4 ∧ Event.invalid.code = 5) ∧
  ∀ (c : BitVec 3) (e : Event), Event.ofCode c = some e ↔ e.code = c

/-! ## The sampler -/

/-- R81: a HOLD tick leaves the state as it was, and its event is `NoEvent`. That a HOLD row run where
`lastLevel` is not its stored level writes its own level is the model's reading (assumption log 8). -/
def Obligations.HoldTicksChangeNothing : Prop :=
  ∀ (s : State) (ts : Timestamp),
    (exec (.holdLow ts) s = .next { s with lastLevel := false } ∧
      exec (.holdHigh ts) s = .next { s with lastLevel := true }) ∧
    (s.lastLevel = false → exec (.holdLow ts) s = .next s ∧ eventOf (.holdLow ts) s = some .noEvent) ∧
    (s.lastLevel = true → exec (.holdHigh ts) s = .next s ∧ eventOf (.holdHigh ts) s = some .noEvent) ∧
    (∀ rest, s.stimulus = .clock false true s.lastLevel ts :: rest → step s = .next { s with stimulus := rest })

/-- R82, R65: the gap since the previous falling edge selects the event, which acts in the same tick on the
sampled registers (R10, R50 with D12; R102, R105 to R107, R138); `tRef` moves in every case (D22, assumption
log 15). FALL as the whole tick, at either `lastLevel`, is the model's reading (assumption log 8). -/
def Obligations.FallClassifiesTheGap : Prop :=
  ∀ (s : State) (ts : Timestamp),
    let gap := (ts.toNat + 65536 - s.tRef.toNat) % 65536
    let s1 : State := { s with lastLevel := false, tRef := ts }
    (∀ c : Cursor, 900 ≤ gap → gap ≤ 1100 → c.val = s.cursor.val + 1 →
      exec (.fall ts) s = .next { s1 with cursor := c }) ∧
    (900 ≤ gap → gap ≤ 1100 → s.cursor.val = 58 → exec (.fall ts) s = .next (discarded s1)) ∧
    (1900 ≤ gap → gap ≤ 2100 → s.cursor.val ≠ 58 → exec (.fall ts) s = .next (discarded s1)) ∧
    (∀ d, 1900 ≤ gap → gap ≤ 2100 → s.cursor.val = 58 → Passes s.frame → Spells s.frame d →
      exec (.fall ts) s = .next (committed d s1)) ∧
    (1900 ≤ gap → gap ≤ 2100 → s.cursor.val = 58 → ¬ Passes s.frame → exec (.fall ts) s = .next (discarded s1)) ∧
    (¬(900 ≤ gap ∧ gap ≤ 1100) → ¬(1900 ≤ gap ∧ gap ≤ 2100) →
      exec (.fall ts) s = .next { s1 with healthFlag := true }) ∧
    eventOf (.fall ts) s = some (if 900 ≤ gap ∧ gap ≤ 1100 then .secondMark
      else if 1900 ≤ gap ∧ gap ≤ 2100 then .minuteMark else .invalid)

/-- R83, R66: the length of the low pulse selects the event, which acts in the same tick (R10, R50 with D12;
R103, R104, R106); `tRef` is not written (D22, assumption log 15). RISE as the whole tick, at either
`lastLevel`, is the model's reading (assumption log 8). -/
def Obligations.RiseClassifiesTheWidth : Prop :=
  ∀ (s : State) (ts : Timestamp),
    let width := (ts.toNat + 65536 - s.tRef.toNat) % 65536
    (70 ≤ width → width ≤ 130 → ∃ t, exec (.rise ts) s = .next t ∧ SlotWritten s t false ∧
      t = { s with lastLevel := true, frame := t.frame }) ∧
    (170 ≤ width → width ≤ 230 → ∃ t, exec (.rise ts) s = .next t ∧ SlotWritten s t true ∧
      t = { s with lastLevel := true, frame := t.frame }) ∧
    (¬(70 ≤ width ∧ width ≤ 130) → ¬(170 ≤ width ∧ width ≤ 230) →
      exec (.rise ts) s = .next { s with lastLevel := true, healthFlag := true }) ∧
    eventOf (.rise ts) s = some (if 70 ≤ width ∧ width ≤ 130 then .zeroBit
      else if 170 ≤ width ∧ width ≤ 230 then .oneBit else .invalid)

/-- R84, as the spec decides it (D22, C1): after every tick `lastLevel` is the level presented, and `tRef` has
moved exactly at a falling edge. -/
def Obligations.SamplerRegistersAfterATick : Prop :=
  ∀ (s : State) (level : Bool) (ts : Timestamp) (rest : List Stimulus),
    s.stimulus = .clock false true level ts :: rest →
      ∃ t, step s = .next t ∧ t.lastLevel = level ∧
        t.tRef = if s.lastLevel = true ∧ level = false then ts else s.tRef

/-- The six EDGE2+DELTA rows complete: the row's event acts on the sampled registers, whatever `delta` is
(assumption log 9). -/
def Obligations.ClassifiedEdgesRunTheirEvent : Prop :=
  ∀ (s : State) (d : Timestamp),
    let f : State := { s with lastLevel := false, tRef := s.tRef + d }
    let r : State := { s with lastLevel := true }
    (∃ t, exec (.fallSecondMark d) s = .next t ∧ exec .secondMark f = .next t ∧
      t.lastLevel = false ∧ t.tRef = s.tRef + d ∧ t.frame = s.frame ∧ t.decoded = s.decoded) ∧
    (∃ t, exec (.fallMinuteMark d) s = .next t ∧ exec .minuteMark f = .next t ∧
      t.lastLevel = false ∧ t.tRef = s.tRef + d ∧ t.frame = s.frame ∧ t.cursor = 0) ∧
    exec (.fallInvalid d) s = .next { f with healthFlag := true } ∧
    (∃ t, exec (.riseZeroBit d) s = .next t ∧ SlotWritten s t false ∧ t = { r with frame := t.frame }) ∧
    (∃ t, exec (.riseOneBit d) s = .next t ∧ SlotWritten s t true ∧ t = { r with frame := t.frame }) ∧
    exec (.riseInvalid d) s = .next { r with healthFlag := true }

/-- An EDGE2+DELTA row is the sub-case of its EDGE2 row that its window on `delta` selects (R64, R65, R66). -/
def Obligations.ClassifiedEdgesAreSubcases : Prop :=
  ∀ (s : State) (d : Timestamp),
    (Instr.wellFormed (.fallSecondMark d) = true → exec (.fallSecondMark d) s = exec (.fall (s.tRef + d)) s) ∧
    (Instr.wellFormed (.fallMinuteMark d) = true → exec (.fallMinuteMark d) s = exec (.fall (s.tRef + d)) s) ∧
    (Instr.wellFormed (.fallInvalid d) = true → exec (.fallInvalid d) s = exec (.fall (s.tRef + d)) s) ∧
    (Instr.wellFormed (.riseZeroBit d) = true → exec (.riseZeroBit d) s = exec (.rise (s.tRef + d)) s) ∧
    (Instr.wellFormed (.riseOneBit d) = true → exec (.riseOneBit d) s = exec (.rise (s.tRef + d)) s) ∧
    (Instr.wellFormed (.riseInvalid d) = true → exec (.riseInvalid d) s = exec (.rise (s.tRef + d)) s)

/-- R64: only the difference of two timestamps matters; moving both by `k`, across a wrap or not, changes
nothing but the stored timestamp. -/
def Obligations.OnlyDifferencesMatter : Prop :=
  ∀ (s : State) (ts k : Timestamp),
    (∃ t, exec (.fall ts) s = .next t ∧
      exec (.fall (ts + k)) { s with tRef := s.tRef + k } = .next { t with tRef := t.tRef + k }) ∧
    (∃ t, exec (.rise ts) s = .next t ∧
      exec (.rise (ts + k)) { s with tRef := s.tRef + k } = .next { t with tRef := t.tRef + k })

/-- R10, with the spec's own decisions D1 and D12: a clock edge with a tick is `Classify` and then `Process` of
its one event, in one step; without a tick no register changes. -/
def Obligations.TickIsClassifyThenProcess : Prop :=
  ∀ (s : State) (level : Bool) (ts : Timestamp) (rest : List Stimulus),
    (s.stimulus = .clock false true level ts :: rest →
      step s = .next (process (classify level ts s).1 (classify level ts { s with stimulus := rest }).2).2 ∧
      eventOut s = some (classify level ts s).1.code) ∧
    (s.stimulus = .clock false false level ts :: rest → step s = .next { s with stimulus := rest })

/-- R85, the spec's own decision (D10): the strobe is 1 at every tick whose event is not `NoEvent`, which is
every tick that changes the level. -/
def Obligations.LiveStrobeAtEveryEdge : Prop :=
  ∀ (s : State) (level : Bool) (ts : Timestamp) (rest : List Stimulus),
    s.stimulus = .clock false true level ts :: rest →
      liveStrobe s = some (decide ((classify level ts s).1 ≠ .noEvent)) ∧
      liveStrobe s = some (decide (level ≠ s.lastLevel))

/-- R87, the spec's own inference: an edge, any number of clock edges that keep its level (HOLD ticks, whose
event is `NoEvent`, or no tick), and the next edge. A falling edge's event is of the falling set and the next
edge's of the rising set; a rising edge's is of the rising set and the next edge's of the falling set. -/
def Obligations.EdgesAlternate : Prop :=
  ∀ (s t : State) (l1 l2 : Bool) (ts1 ts2 : Timestamp) (quiet rest : List Stimulus) (e1 e2 : Event),
    s.stimulus = .clock false true l1 ts1 :: (quiet ++ .clock false true l2 ts2 :: rest) →
    (∀ x ∈ quiet, x.quietAt l1 = true) →
    Sys2Proof.core.run (quiet.length + 1) s = .next t →
    nextEvent s = some e1 → nextEvent t = some e2 → e1 ≠ .noEvent → e2 ≠ .noEvent →
      (l1 = false ∧ l2 = true ∧
        (e1 = .secondMark ∨ e1 = .minuteMark ∨ e1 = .invalid) ∧ (e2 = .zeroBit ∨ e2 = .oneBit ∨ e2 = .invalid)) ∨
      (l1 = true ∧ l2 = false ∧
        (e1 = .zeroBit ∨ e1 = .oneBit ∨ e1 = .invalid) ∧ (e2 = .secondMark ∨ e2 = .minuteMark ∨ e2 = .invalid))

/-! ## Frame completion -/

/-- R120 to R123: a group passes when it holds an even number of ones; a failure discards, a pass changes nothing. -/
def Obligations.ParityUnitsCountOnes : Prop :=
  ∀ (f : Frame) (s : State),
    (exec (.parityMinute f) s = .next (if ones f 21 28 % 2 = 0 then s else { s with cursor := 0, healthFlag := true }) ∧
      outcomeOf (.parityMinute f) s = some (if ones f 21 28 % 2 = 0 then .okNone else .parityErrorMinute)) ∧
    (exec (.parityHour f) s = .next (if ones f 29 35 % 2 = 0 then s else { s with cursor := 0, healthFlag := true }) ∧
      outcomeOf (.parityHour f) s = some (if ones f 29 35 % 2 = 0 then .okNone else .parityErrorHour)) ∧
    (exec (.parityDate f) s = .next (if ones f 36 58 % 2 = 0 then s else { s with cursor := 0, healthFlag := true }) ∧
      outcomeOf (.parityDate f) s = some (if ones f 36 58 % 2 = 0 then .okNone else .parityErrorDate))

/-- R131 to R136: a field passes when its weighted sum is in its range; a failure discards, a pass changes nothing. -/
def Obligations.FieldUnitsCheckTheirRange : Prop :=
  ∀ (f : Frame) (s : State),
    (exec (.fieldMinute f) s = .next (if specMinute f ≤ 59 then s else { s with cursor := 0, healthFlag := true }) ∧
      outcomeOf (.fieldMinute f) s = some (if specMinute f ≤ 59 then .okNone else .rangeErrorMinute)) ∧
    (exec (.fieldHour f) s = .next (if specHour f ≤ 23 then s else { s with cursor := 0, healthFlag := true }) ∧
      outcomeOf (.fieldHour f) s = some (if specHour f ≤ 23 then .okNone else .rangeErrorHour)) ∧
    (exec (.fieldDay f) s =
        .next (if 1 ≤ specDay f ∧ specDay f ≤ 31 then s else { s with cursor := 0, healthFlag := true }) ∧
      outcomeOf (.fieldDay f) s = some (if 1 ≤ specDay f ∧ specDay f ≤ 31 then .okNone else .rangeErrorDay)) ∧
    (exec (.fieldWeekday f) s =
        .next (if 1 ≤ specWeekday f ∧ specWeekday f ≤ 7 then s else { s with cursor := 0, healthFlag := true }) ∧
      outcomeOf (.fieldWeekday f) s =
        some (if 1 ≤ specWeekday f ∧ specWeekday f ≤ 7 then .okNone else .rangeErrorWeekday)) ∧
    (exec (.fieldMonth f) s =
        .next (if 1 ≤ specMonth f ∧ specMonth f ≤ 12 then s else { s with cursor := 0, healthFlag := true }) ∧
      outcomeOf (.fieldMonth f) s = some (if 1 ≤ specMonth f ∧ specMonth f ≤ 12 then .okNone else .rangeErrorMonth)) ∧
    (exec (.fieldYear f) s = .next (if specYear f ≤ 2099 then s else { s with cursor := 0, healthFlag := true }) ∧
      outcomeOf (.fieldYear f) s = some (if specYear f ≤ 2099 then .okNone else .rangeErrorYear))

/-- R107, R138, R139: a frame that passes the nine checks commits its six fields at once; any other is discarded. -/
def Obligations.CompletionCommitsOrDiscards : Prop :=
  ∀ (f : Frame) (s : State),
    (∀ d, Passes f → Spells f d →
      exec (.frame f) s = .next { s with decoded := d, healthFlag := false, cursor := 0 } ∧
      outcomeOf (.frame f) s = some .commit) ∧
    (¬ Passes f → exec (.frame f) s = .next { s with cursor := 0, healthFlag := true } ∧
      outcomeOf (.frame f) s ≠ some .commit)

/-- A frame that passes spells a time, and the time is in range (R27): the premises of the commit clause are
met by every passing frame. -/
def Obligations.PassingFrameSpellsATime : Prop :=
  ∀ f : Frame, Passes f → ∃ d : DecodedTime, Spells f d ∧ inRange d = true

/-- R177 (b): the first failing step, in the source's order, names the outcome. -/
def Obligations.FirstFailureNamesTheOutcome : Prop :=
  ∀ (f : Frame) (s : State), outcomeOf (.frame f) s = some (
    if ones f 21 28 % 2 ≠ 0 then .parityErrorMinute
    else if ones f 29 35 % 2 ≠ 0 then .parityErrorHour
    else if ones f 36 58 % 2 ≠ 0 then .parityErrorDate
    else if specMinute f > 59 then .rangeErrorMinute
    else if specHour f > 23 then .rangeErrorHour
    else if specDay f > 31 ∨ specDay f = 0 then .rangeErrorDay
    else if specWeekday f > 7 ∨ specWeekday f = 0 then .rangeErrorWeekday
    else if specMonth f > 12 ∨ specMonth f = 0 then .rangeErrorMonth
    else if specYear f > 2099 then .rangeErrorYear
    else .commit)

/-- R124: one flipped slot inside the parity ranges of a parity-good frame is rejected. -/
def Obligations.SingleFlipIsRejected : Prop :=
  ∀ (f : Frame) (i : Fin 59) (s : State), ParityGood f → 21 ≤ i.val →
    exec (.frame (f.set i.val (!f[i]) i.isLt)) s = .next { s with cursor := 0, healthFlag := true } ∧
    (outcomeOf (.frame (f.set i.val (!f[i]) i.isLt)) s = some .parityErrorMinute ∨
      outcomeOf (.frame (f.set i.val (!f[i]) i.isLt)) s = some .parityErrorHour ∨
      outcomeOf (.frame (f.set i.val (!f[i]) i.isLt)) s = some .parityErrorDate)

/-- R71, the spec's own inference: frames that differ only in slots 0 to 20 have the same outcome. -/
def Obligations.LowSlotsAreIgnored : Prop :=
  ∀ (f g : Frame) (s : State), (∀ i : Fin 59, 21 ≤ i.val → f[i] = g[i]) →
    exec (.frame f) s = exec (.frame g) s ∧ outcomeOf (.frame f) s = outcomeOf (.frame g) s

/-- R141, R73, R140: the canonical frame of any time in range, whatever slots 0 to 20 hold, commits exactly
that time; the day need not exist in its month. -/
def Obligations.CanonicalFrameRoundTrip : Prop :=
  ∀ (low : Frame) (t : DecodedTime) (s : State), inRange t = true →
    exec (.frame (canonicalFrame low t)) s = .next { s with decoded := t, healthFlag := false, cursor := 0 }

/-- R138, R198: a step that shows `commit_strobe` loads the six fields that slots 21 to 58 spell at that step,
clears the flag, sets the cursor to 0 and clears no slot. -/
def Obligations.CommitStrobeMeansCommit : Prop :=
  ∀ s : State, commitStrobe s = some true →
    Passes s.frame ∧ ∃ t, step s = .next t ∧ Spells s.frame t.decoded ∧ t.healthFlag = false ∧ t.cursor = 0 ∧
      t.frame = s.frame

/-- R138, R105: at a tick, the commit strobe is 1 exactly when the event is `MinuteMark`, the cursor is 58 and
the frame passes. -/
def Obligations.CommitStrobeAtATick : Prop :=
  ∀ (s : State) (level : Bool) (ts : Timestamp) (rest : List Stimulus),
    s.stimulus = .clock false true level ts :: rest →
      (commitStrobe s = some true ↔
        (classify level ts s).1 = .minuteMark ∧ s.cursor.val = 58 ∧ Passes s.frame) ∧
      (commitStrobe s = some false ↔
        ¬((classify level ts s).1 = .minuteMark ∧ s.cursor.val = 58 ∧ Passes s.frame))

/-! ## Rules of the whole machine -/

/-- R27: every step keeps every `DecodedTime` field in range. -/
def Obligations.StepKeepsDecodedInRange : Prop :=
  ∀ s t : State, s.Inv → step s = .next t → t.Inv

/-- R32, R27: the reset value, the spec's own decision (D8), is in range. -/
def Obligations.ResetIsInRange : Prop := State.reset.Inv

/-- R178: what each class of outcome does to the registers, whichever operation ends in it. -/
def Obligations.OutcomeDecidesTheEffect : Prop :=
  ∀ (i : Instr) (s t : State) (o : TickOutcome), exec i s = .next t → outcomeOf i s = some o →
    (o = .okNone → t.healthFlag = s.healthFlag ∧ t.decoded = s.decoded) ∧
    (o = .commit → t.healthFlag = false ∧ t.cursor = 0 ∧ t.frame = s.frame) ∧
    (o ≠ .okNone → o ≠ .commit → t.healthFlag = true ∧ t.decoded = s.decoded ∧ t.frame = s.frame ∧
      (o = .invalidClassification → t.cursor = s.cursor) ∧ (o ≠ .invalidClassification → t.cursor = 0))

/-- R180: only a commit clears the flag. -/
def Obligations.OnlyACommitClearsTheFlag : Prop :=
  ∀ s t : State, step s = .next t → s.healthFlag = true → t.healthFlag = false → commitStrobe s = some true

/-- R28: `DecodedTime` changes only at a commit or a reset edge. -/
def Obligations.OnlyACommitWritesDecoded : Prop :=
  ∀ s t : State, step s = .next t → t.decoded ≠ s.decoded → commitStrobe s = some true ∨ fetch s = .reset

/-- R108, the spec's own inference: after a step whose event is `MinuteMark` the cursor is 0, and the flag is
clear exactly after a commit. -/
def Obligations.MinuteMarkRewindsTheCursor : Prop :=
  ∀ s : State, nextEvent s = some .minuteMark →
    ∃ t, step s = .next t ∧ t.cursor = 0 ∧ (t.healthFlag = false ↔ nextOutcome s = some .commit)

/-- R24: at a clock edge without reset the cursor changes only by a `SecondMark`, to the next slot or from 58
to 0, and by a `MinuteMark`, to 0. -/
def Obligations.CursorMovesOnMarksOnly : Prop :=
  ∀ (s t : State) (tk level : Bool) (ts : Timestamp) (rest : List Stimulus),
    s.stimulus = .clock false tk level ts :: rest → step s = .next t → t.cursor ≠ s.cursor →
      (nextEvent s = some .secondMark ∧
        (t.cursor.val = s.cursor.val + 1 ∨ (s.cursor.val = 58 ∧ t.cursor = 0))) ∨
      (nextEvent s = some .minuteMark ∧ t.cursor = 0)

/-- R42, R52: a step that is no reset edge changes at most the slot at the cursor, only to the bit of a bit
event, and then the cursor stays. -/
def Obligations.AtMostOneSlotIsWritten : Prop :=
  ∀ s t : State, step s = .next t → fetch s ≠ .reset →
    (∀ j : Fin 59, j ≠ s.cursor → t.frame[j] = s.frame[j]) ∧
    (t.frame ≠ s.frame → t.cursor = s.cursor ∧
      ((nextEvent s = some .zeroBit ∧ t.frame[s.cursor] = false) ∨
        (nextEvent s = some .oneBit ∧ t.frame[s.cursor] = true)))

/-- R3: operations behind the sampler write neither of its registers. -/
def Obligations.LaterStagesLeaveTheSampler : Prop :=
  ∀ (i : Instr) (s t : State), exec i s = .next t → (encode i).fmt ≠ .edge2 → (encode i).fmt ≠ .edge2Delta →
    t.lastLevel = s.lastLevel ∧ t.tRef = s.tRef ∧ t.stimulus = s.stimulus

/-- R179: no clock edge stops the machine, in any state, and no run of clock edges does. -/
def Obligations.ClockEdgesNeverStop : Prop :=
  ∀ s : State, (∀ x ∈ s.stimulus, x.isClock = true) → ∀ k : Nat, safeFor k s

/-- C3 of 90_conflicts.md: from cursor `c` the overflow is at `SecondMark` number `59 - c`, and after it the
cursor is 0 and the flag is raised. -/
def Obligations.OverflowAtTheFiftyNinth : Prop :=
  ∀ s : State,
    (∀ (n : Nat) (c : Cursor), c.val = s.cursor.val + n →
      execAll (List.replicate n .secondMark) s = .next { s with cursor := c }) ∧
    execAll (List.replicate (59 - s.cursor.val) .secondMark) s = .next { s with cursor := 0, healthFlag := true }

/-- R109, R141: feeding any frame from cursor 0 stores exactly that frame and ends at the last slot. -/
def Obligations.FeedingStoresTheFrame : Prop :=
  ∀ (f : Frame) (s : State), s.cursor = 0 → execAll (feed f) s = .next { s with frame := f, cursor := 58 }

/-- R109, R179: from every state, whatever it holds, a minute mark, any passing frame and the next minute mark
lead to that frame's time with the flag clear. -/
def Obligations.RecoversAtTheSecondMinuteMark : Prop :=
  ∀ (f : Frame) (s : State) (d : DecodedTime), Passes f → Spells f d →
    execAll (.minuteMark :: (feed f ++ [.minuteMark])) s =
      .next { s with frame := f, cursor := 0, healthFlag := false, decoded := d }

/-- R204: the minute mark judges the frame on its content alone, whether or not an `Invalid` came before it. -/
def Obligations.InvalidDoesNotPoison : Prop :=
  ∀ s : State,
    (∀ d : DecodedTime, s.cursor.val = 58 → Passes s.frame → Spells s.frame d →
      execAll [.invalid, .minuteMark] s = .next { s with decoded := d, healthFlag := false, cursor := 0 }) ∧
    execAll [.invalid, .minuteMark] s = exec .minuteMark s

/-! ## The projector -/

/-- R152, R153, R155, R156, R157: the branches whose values the source prints. -/
def Obligations.ProjectionBranches : Prop :=
  ∀ t : DecodedTime, inRange t = true →
    (6 ≤ t.hour.toNat → (project t).hour.toNat = t.hour.toNat - 6 ∧ (project t).day = t.day ∧
      (project t).weekday = t.weekday ∧ (project t).month = t.month ∧ (project t).year = t.year) ∧
    (t.hour.toNat < 6 → (project t).hour.toNat = t.hour.toNat + 18 ∧
      (project t).weekday.toNat = (if t.weekday.toNat = 1 then 7 else t.weekday.toNat - 1) ∧
      (2 ≤ t.day.toNat → (project t).day.toNat = t.day.toNat - 1) ∧
      (t.day.toNat = 1 → t.month.toNat ≠ 1 → (project t).month.toNat = t.month.toNat - 1 ∧
        (project t).year = t.year) ∧
      (t.day.toNat = 1 → t.month.toNat = 1 → (project t).day.toNat = 31 ∧ (project t).month.toNat = 12 ∧
        (project t).year.toNat = t.year.toNat - 1) ∧
      (t.day.toNat = 1 → t.month.toNat = 3 → (project t).month.toNat = 2 ∧ (project t).year = t.year ∧
        (project t).day.toNat = if t.year.toNat % 4 = 0 ∧ (t.year.toNat % 100 ≠ 0 ∨ t.year.toNat % 400 = 0)
          then 29 else 28))

/-- R160 and R154, which the spec marks as its own: the minute passes through, and month and year change only
when the day reaches 0. -/
def Obligations.ProjectionKeepsMinuteMonthYear : Prop :=
  ∀ t : DecodedTime, inRange t = true →
    (project t).minute = t.minute ∧
    (t.hour.toNat < 6 → 2 ≤ t.day.toNat → (project t).day.toNat = t.day.toNat - 1 ∧
      (project t).month = t.month ∧ (project t).year = t.year)

/-- R158: rolling back into the ten months whose lengths the source does not print; the lengths are general
knowledge (assumption log 4), not the source's. -/
def Obligations.ProjectionOtherMonths : Prop :=
  ∀ t : DecodedTime, inRange t = true → t.hour.toNat < 6 → t.day.toNat = 1 →
    t.month.toNat ≠ 1 → t.month.toNat ≠ 3 →
    (project t).month.toNat = t.month.toNat - 1 ∧ (project t).year = t.year ∧
    (project t).day.toNat =
      if t.month.toNat - 1 = 4 ∨ t.month.toNat - 1 = 6 ∨ t.month.toNat - 1 = 9 ∨ t.month.toNat - 1 = 11
      then 30 else 31

/-- R151: the local hour is the 6-bit difference read as signed, plus 24 when it is negative. -/
def Obligations.BorrowIsTheSign : Prop :=
  ∀ t : DecodedTime, inRange t = true →
    let localHour : Int := (BitVec.setWidth 6 t.hour - 6#6).toInt
    localHour = (t.hour.toNat : Int) - 6 ∧
    ((project t).hour.toNat : Int) = if 0 ≤ localHour then localHour else localHour + 24

/-- R159: the source's expression, and the short form on the years the hardware can hold. -/
def Obligations.LeapYears : Prop :=
  (∀ y : Nat, leap y = true ↔ y % 4 = 0 ∧ (y % 100 ≠ 0 ∨ y % 400 = 0)) ∧
  (∀ y : BitVec 12, 2000 ≤ y.toNat → y.toNat ≤ 2099 → (leap y.toNat = true ↔ y.extractLsb' 0 2 = 0#2))

/-- R161, the spec's own inference: the ranges of the projection. -/
def Obligations.ProjectionRanges : Prop :=
  ∀ t : DecodedTime, inRange t = true →
    1999 ≤ (project t).year.toNat ∧ (project t).year.toNat ≤ 2099 ∧
    1 ≤ (project t).month.toNat ∧ (project t).month.toNat ≤ 12 ∧
    1 ≤ (project t).day.toNat ∧ (project t).day.toNat ≤ 31 ∧
    1 ≤ (project t).weekday.toNat ∧ (project t).weekday.toNat ≤ 7 ∧
    (project t).hour.toNat ≤ 23 ∧ (project t).minute.toNat ≤ 59

/-- R150 against the calendar: a date that exists is projected to the date exactly six hours before it, with
the weekday moved by as many days as the date. The month lengths are general knowledge (assumption log 4). -/
def Obligations.ProjectionIsSixHoursBack : Prop :=
  ∀ t : DecodedTime, inRange t = true → onCalendar t →
    onCalendar (project t) ∧ hourNumber (project t) + 6 = hourNumber t ∧ (project t).minute = t.minute ∧
    ((project t).weekday.toNat + (dayNumber t - dayNumber (project t))) % 7 = t.weekday.toNat % 7

/-- R29, R162, R186: the state-driven ports are functions of the registers alone. -/
def Obligations.PortsFollowTheRegisters : Prop :=
  ∀ s t : State, (statePorts s).health_flag = s.healthFlag ∧ (statePorts s).dt = s.decoded ∧
    (statePorts s).lt = project s.decoded ∧
    (step s = .next t → (statePorts t).lt ≠ (statePorts s).lt → commitStrobe s = some true ∨ fetch s = .reset)

/-! ## Encodings and the step -/

/-- Words written out from the encoding column of the table and 30_encoding.md decode to the rows they stand
for: R62's codes, R61's edge codes with an operand, R67's windows, R68's slots. -/
def Obligations.SpecWordsDecode : Prop :=
  decode ⟨.event3, 0b001⟩ = .ok .secondMark ∧ decode ⟨.event3, 0b100⟩ = .ok .minuteMark ∧
  decode ⟨.event3, 0b111⟩ = .ok .reservedEvent7 ∧
  decode ⟨.edge2, 1000 * 4 + 0b10⟩ = .ok (.fall 1000) ∧ decode ⟨.edge2, 0b11⟩ = .ok (.holdHigh 0) ∧
  decode ⟨.edge2Delta, 900 * 4 + 0b10⟩ = .ok (.fallSecondMark 900) ∧
  decode ⟨.edge2Delta, 899 * 4 + 0b10⟩ = .ok (.fallInvalid 899) ∧
  decode ⟨.edge2Delta, 230 * 4 + 0b01⟩ = .ok (.riseOneBit 230) ∧
  decode ⟨.edge2Delta, 0b00⟩ = .error .noDeltaOnHold ∧
  decode ⟨.frame59 .fieldYear, 2 ^ 57⟩ = .ok (.fieldYear ((Vector.replicate 59 false).set 57 true))

/-- Decoding an encoded well-formed operation gives it back, with every operand at every value. -/
def Obligations.DecodeEncodeAgree : Prop := ∀ i : Instr, i.wellFormed = true → decode (encode i) = .ok i

/-- Every word that decodes is the word of the operation it decodes to, and that operation is well-formed. -/
def Obligations.EncodeDecodeAgree : Prop :=
  ∀ (w : OpWord) (i : Instr), decode w = .ok i → encode i = w ∧ i.wellFormed = true

/-- A step runs the operation decoded from the word it fetches, on the state with that input taken. -/
def Obligations.StepRunsTheDecodedOperation : Prop :=
  ∀ (s : State) (w : OpWord) (i : Instr), fetch s = .word w → decode w = .ok i →
    step s = exec i { s with stimulus := s.stimulus.tail }

/-- A placed word is the operation the very next step runs. -/
def Obligations.PlacedWordRunsNext : Prop :=
  ∀ (s : State) (nbits w : Nat) (i : Instr), decodeTableWord nbits w = some i →
    ∃ s1 : State, step (s.withFetchWord nbits w) = exec i s1 ∧ s1.stimulus = s.stimulus.tail ∧
      s1.tRef = s.tRef ∧ s1.cursor = s.cursor ∧ s1.healthFlag = s.healthFlag ∧ s1.decoded = s.decoded

/-- R65, R66: the windows partition `delta`, both ends of each included. -/
def Obligations.WindowsPartitionDelta : Prop :=
  ∀ d : Timestamp,
    (d.toNat ≤ 899 ∨ (1101 ≤ d.toNat ∧ d.toNat ≤ 1899) ∨ 2101 ≤ d.toNat ↔ classifyFall d = .invalid) ∧
    (900 ≤ d.toNat ∧ d.toNat ≤ 1100 ↔ classifyFall d = .secondMark) ∧
    (1900 ≤ d.toNat ∧ d.toNat ≤ 2100 ↔ classifyFall d = .minuteMark) ∧
    (d.toNat ≤ 69 ∨ (131 ≤ d.toNat ∧ d.toNat ≤ 169) ∨ 231 ≤ d.toNat ↔ classifyRise d = .invalid) ∧
    (70 ≤ d.toNat ∧ d.toNat ≤ 130 ↔ classifyRise d = .zeroBit) ∧
    (170 ≤ d.toNat ∧ d.toNat ≤ 230 ↔ classifyRise d = .oneBit)
end

