-- ==== Sys2Proof/Laws/State.lean ====
section
/-! SUPPORT. One lemma per field per update, so that no proof unfolds a record update. -/

namespace Sys2Proof.Machine

@[simp] theorem setHealth_lastLevel (s : State) : (setHealth s).lastLevel = s.lastLevel := rfl
@[simp] theorem setHealth_tRef (s : State) : (setHealth s).tRef = s.tRef := rfl
@[simp] theorem setHealth_frame (s : State) : (setHealth s).frame = s.frame := rfl
@[simp] theorem setHealth_cursor (s : State) : (setHealth s).cursor = s.cursor := rfl
@[simp] theorem setHealth_healthFlag (s : State) : (setHealth s).healthFlag = true := rfl
@[simp] theorem setHealth_decoded (s : State) : (setHealth s).decoded = s.decoded := rfl
@[simp] theorem setHealth_stimulus (s : State) : (setHealth s).stimulus = s.stimulus := rfl

@[simp] theorem clearHealth_lastLevel (s : State) : (clearHealth s).lastLevel = s.lastLevel := rfl
@[simp] theorem clearHealth_tRef (s : State) : (clearHealth s).tRef = s.tRef := rfl
@[simp] theorem clearHealth_frame (s : State) : (clearHealth s).frame = s.frame := rfl
@[simp] theorem clearHealth_cursor (s : State) : (clearHealth s).cursor = s.cursor := rfl
@[simp] theorem clearHealth_healthFlag (s : State) : (clearHealth s).healthFlag = false := rfl
@[simp] theorem clearHealth_decoded (s : State) : (clearHealth s).decoded = s.decoded := rfl
@[simp] theorem clearHealth_stimulus (s : State) : (clearHealth s).stimulus = s.stimulus := rfl

@[simp] theorem setCursor_lastLevel (c : Cursor) (s : State) : (setCursor c s).lastLevel = s.lastLevel := rfl
@[simp] theorem setCursor_tRef (c : Cursor) (s : State) : (setCursor c s).tRef = s.tRef := rfl
@[simp] theorem setCursor_frame (c : Cursor) (s : State) : (setCursor c s).frame = s.frame := rfl
@[simp] theorem setCursor_cursor (c : Cursor) (s : State) : (setCursor c s).cursor = c := rfl
@[simp] theorem setCursor_healthFlag (c : Cursor) (s : State) : (setCursor c s).healthFlag = s.healthFlag := rfl
@[simp] theorem setCursor_decoded (c : Cursor) (s : State) : (setCursor c s).decoded = s.decoded := rfl
@[simp] theorem setCursor_stimulus (c : Cursor) (s : State) : (setCursor c s).stimulus = s.stimulus := rfl

@[simp] theorem writeSlot_lastLevel (b : Bool) (s : State) : (writeSlot b s).lastLevel = s.lastLevel := rfl
@[simp] theorem writeSlot_tRef (b : Bool) (s : State) : (writeSlot b s).tRef = s.tRef := rfl
@[simp] theorem writeSlot_frame (b : Bool) (s : State) : (writeSlot b s).frame = s.frame.set s.cursor.val b s.cursor.isLt := rfl
@[simp] theorem writeSlot_cursor (b : Bool) (s : State) : (writeSlot b s).cursor = s.cursor := rfl
@[simp] theorem writeSlot_healthFlag (b : Bool) (s : State) : (writeSlot b s).healthFlag = s.healthFlag := rfl
@[simp] theorem writeSlot_decoded (b : Bool) (s : State) : (writeSlot b s).decoded = s.decoded := rfl
@[simp] theorem writeSlot_stimulus (b : Bool) (s : State) : (writeSlot b s).stimulus = s.stimulus := rfl

@[simp] theorem sampleHold_lastLevel (l : Bool) (s : State) : (sampleHold l s).lastLevel = l := rfl
@[simp] theorem sampleHold_tRef (l : Bool) (s : State) : (sampleHold l s).tRef = s.tRef := rfl
@[simp] theorem sampleHold_frame (l : Bool) (s : State) : (sampleHold l s).frame = s.frame := rfl
@[simp] theorem sampleHold_cursor (l : Bool) (s : State) : (sampleHold l s).cursor = s.cursor := rfl
@[simp] theorem sampleHold_healthFlag (l : Bool) (s : State) : (sampleHold l s).healthFlag = s.healthFlag := rfl
@[simp] theorem sampleHold_decoded (l : Bool) (s : State) : (sampleHold l s).decoded = s.decoded := rfl
@[simp] theorem sampleHold_stimulus (l : Bool) (s : State) : (sampleHold l s).stimulus = s.stimulus := rfl

@[simp] theorem sampleFall_lastLevel (ts : Timestamp) (s : State) : (sampleFall ts s).lastLevel = false := rfl
@[simp] theorem sampleFall_tRef (ts : Timestamp) (s : State) : (sampleFall ts s).tRef = ts := rfl
@[simp] theorem sampleFall_frame (ts : Timestamp) (s : State) : (sampleFall ts s).frame = s.frame := rfl
@[simp] theorem sampleFall_cursor (ts : Timestamp) (s : State) : (sampleFall ts s).cursor = s.cursor := rfl
@[simp] theorem sampleFall_healthFlag (ts : Timestamp) (s : State) : (sampleFall ts s).healthFlag = s.healthFlag := rfl
@[simp] theorem sampleFall_decoded (ts : Timestamp) (s : State) : (sampleFall ts s).decoded = s.decoded := rfl
@[simp] theorem sampleFall_stimulus (ts : Timestamp) (s : State) : (sampleFall ts s).stimulus = s.stimulus := rfl

@[simp] theorem sampleRise_lastLevel (s : State) : (sampleRise s).lastLevel = true := rfl
@[simp] theorem sampleRise_tRef (s : State) : (sampleRise s).tRef = s.tRef := rfl
@[simp] theorem sampleRise_frame (s : State) : (sampleRise s).frame = s.frame := rfl
@[simp] theorem sampleRise_cursor (s : State) : (sampleRise s).cursor = s.cursor := rfl
@[simp] theorem sampleRise_healthFlag (s : State) : (sampleRise s).healthFlag = s.healthFlag := rfl
@[simp] theorem sampleRise_decoded (s : State) : (sampleRise s).decoded = s.decoded := rfl
@[simp] theorem sampleRise_stimulus (s : State) : (sampleRise s).stimulus = s.stimulus := rfl

@[simp] theorem consume_lastLevel (s : State) : (consume s).lastLevel = s.lastLevel := rfl
@[simp] theorem consume_tRef (s : State) : (consume s).tRef = s.tRef := rfl
@[simp] theorem consume_frame (s : State) : (consume s).frame = s.frame := rfl
@[simp] theorem consume_cursor (s : State) : (consume s).cursor = s.cursor := rfl
@[simp] theorem consume_healthFlag (s : State) : (consume s).healthFlag = s.healthFlag := rfl
@[simp] theorem consume_decoded (s : State) : (consume s).decoded = s.decoded := rfl
@[simp] theorem consume_stimulus (s : State) : (consume s).stimulus = s.stimulus.tail := rfl

@[simp] theorem resetRegisters_lastLevel (s : State) : (resetRegisters s).lastLevel = State.reset.lastLevel := rfl
@[simp] theorem resetRegisters_tRef (s : State) : (resetRegisters s).tRef = State.reset.tRef := rfl
@[simp] theorem resetRegisters_frame (s : State) : (resetRegisters s).frame = State.reset.frame := rfl
@[simp] theorem resetRegisters_cursor (s : State) : (resetRegisters s).cursor = State.reset.cursor := rfl
@[simp] theorem resetRegisters_healthFlag (s : State) : (resetRegisters s).healthFlag = State.reset.healthFlag := rfl
@[simp] theorem resetRegisters_decoded (s : State) : (resetRegisters s).decoded = State.reset.decoded := rfl
@[simp] theorem resetRegisters_stimulus (s : State) : (resetRegisters s).stimulus = s.stimulus := rfl

@[simp] theorem raise_fst (e : TickOutcome) (s : State) : (raise e s).1 = e := rfl
@[simp] theorem raise_snd (e : TickOutcome) (s : State) : (raise e s).2 = setHealth s := rfl
@[simp] theorem discard_fst (e : TickOutcome) (s : State) : (discard e s).1 = e := rfl
@[simp] theorem discard_snd (e : TickOutcome) (s : State) : (discard e s).2 = setHealth (setCursor 0 s) := rfl
@[simp] theorem commit_fst (t : DecodedTime) (s : State) : (commit t s).1 = .commit := rfl

@[simp] theorem commit_lastLevel (t : DecodedTime) (s : State) : (commit t s).2.lastLevel = s.lastLevel := rfl
@[simp] theorem commit_tRef (t : DecodedTime) (s : State) : (commit t s).2.tRef = s.tRef := rfl
@[simp] theorem commit_frame (t : DecodedTime) (s : State) : (commit t s).2.frame = s.frame := rfl
@[simp] theorem commit_cursor (t : DecodedTime) (s : State) : (commit t s).2.cursor = 0 := rfl
@[simp] theorem commit_healthFlag (t : DecodedTime) (s : State) : (commit t s).2.healthFlag = false := rfl
@[simp] theorem commit_decoded (t : DecodedTime) (s : State) : (commit t s).2.decoded = t := rfl
@[simp] theorem commit_stimulus (t : DecodedTime) (s : State) : (commit t s).2.stimulus = s.stimulus := rfl

/-- Two states with the same fields are the same state. -/
theorem State.eq_of_fields {s t : State} (h1 : s.lastLevel = t.lastLevel) (h2 : s.tRef = t.tRef)
    (h3 : s.frame = t.frame) (h4 : s.cursor = t.cursor) (h5 : s.healthFlag = t.healthFlag)
    (h6 : s.decoded = t.decoded) (h7 : s.stimulus = t.stimulus) : s = t := by
  cases s; cases t; simp_all

end Sys2Proof.Machine
end

