-- ==== Sys2Proof/Laws/Frame.lean ====
section
/-! SUPPORT. The frame buffer: reads slot by slot, parity as a count of ones, the six field values as their weighted sums, and the frame word. -/

namespace Sys2Proof.Machine

/-- `MemRead(addr, n)` is the slots `addr, ..., addr + n - 1` (R43). -/
theorem memRead_eq (f : Frame) (a n : Nat) (h : a + n ≤ 59) :
    memRead f a n = List.ofFn (fun k : Fin n => f[a + k.val]) := by
  apply List.ext_getElem
  · simp [memRead]; omega
  · intro i h1 h2
    simp [memRead]

theorem memRead_length (f : Frame) (a n : Nat) (h : a + n ≤ 59) : (memRead f a n).length = n := by
  simp [memRead]; omega

/-- An XOR tree is the count of ones modulo 2 (R120). -/
theorem foldl_xor_eq (l : List Bool) (b : Bool) :
    l.foldl xor b = decide ((b.toNat + (l.map Bool.toNat).sum) % 2 = 1) := by
  induction l generalizing b with
  | nil => cases b <;> rfl
  | cons x l ih =>
    rw [List.foldl_cons, ih]
    (cases b <;> cases x <;> simp); omega

/-- `Parity(a, b) = (Σ frame[i]) mod 2` (R120). -/
theorem parity_eq (f : Frame) (a b : Nat) :
    parity f a b = decide (((memRead f a (b + 1 - a)).map Bool.toNat).sum % 2 = 1) := by
  rw [parity, foldl_xor_eq]; simp

theorem minuteOf_eq (f : Frame) : minuteOf f =
    f[21].toNat + 2 * f[22].toNat + 4 * f[23].toNat + 8 * f[24].toNat + 10 * f[25].toNat +
      20 * f[26].toNat + 40 * f[27].toNat := by
  simp [minuteOf, fieldSum, memRead_eq, List.ofFn_succ]; omega

theorem hourOf_eq (f : Frame) : hourOf f =
    f[29].toNat + 2 * f[30].toNat + 4 * f[31].toNat + 8 * f[32].toNat + 10 * f[33].toNat +
      20 * f[34].toNat := by
  simp [hourOf, fieldSum, memRead_eq, List.ofFn_succ]; omega

theorem dayOf_eq (f : Frame) : dayOf f =
    f[36].toNat + 2 * f[37].toNat + 4 * f[38].toNat + 8 * f[39].toNat + 10 * f[40].toNat +
      20 * f[41].toNat := by
  simp [dayOf, fieldSum, memRead_eq, List.ofFn_succ]; omega

theorem weekdayOf_eq (f : Frame) : weekdayOf f = f[42].toNat + 2 * f[43].toNat + 4 * f[44].toNat := by
  simp [weekdayOf, fieldSum, memRead_eq, List.ofFn_succ]; omega

theorem monthOf_eq (f : Frame) : monthOf f =
    f[45].toNat + 2 * f[46].toNat + 4 * f[47].toNat + 8 * f[48].toNat + 10 * f[49].toNat := by
  simp [monthOf, fieldSum, memRead_eq, List.ofFn_succ]; omega

theorem yearOf_eq (f : Frame) : yearOf f =
    f[50].toNat + 2 * f[51].toNat + 4 * f[52].toNat + 8 * f[53].toNat + 10 * f[54].toNat +
      20 * f[55].toNat + 40 * f[56].toNat + 80 * f[57].toNat + 2000 := by
  simp [yearOf, fieldSum, memRead_eq, List.ofFn_succ]; omega

/-- Bit `i` of the word of a list of slots. -/
theorem foldr_bit_testBit (l : List Bool) (i : Nat) :
    (l.foldr (fun b acc => Nat.bit b acc) 0).testBit i = l[i]?.getD false := by
  induction l generalizing i with
  | nil => simp
  | cons b l ih =>
    cases i with
    | zero => simp
    | succ i => simp [Nat.testBit_bit_succ, ih]

/-- The word of a frame gives the frame back. -/
theorem ofBits_toBits (f : Frame) : Frame.ofBits f.toBits = f := by
  ext i hi
  rw [Frame.ofBits, Vector.getElem_ofFn, Frame.toBits, foldr_bit_testBit]
  simp [hi]

/-- A frame word has no bit above slot 58. -/
theorem toBits_lt (f : Frame) : f.toBits < 2 ^ 59 := by
  apply Nat.lt_pow_two_of_testBit
  intro i hi
  rw [Frame.toBits, foldr_bit_testBit, List.getElem?_eq_none (by simpa using hi), Option.getD_none]

/-- A 59-bit word is the word of its frame. -/
theorem toBits_ofBits (w : Nat) (h : w < 2 ^ 59) : (Frame.ofBits w).toBits = w := by
  apply Nat.eq_of_testBit_eq
  intro i
  rw [Frame.toBits, foldr_bit_testBit]
  by_cases hi : i < 59
  · simp [Frame.ofBits, hi]
  · rw [List.getElem?_eq_none (by simpa using hi), Option.getD_none, Nat.testBit_lt_two_pow]
    exact lt_of_lt_of_le h (Nat.pow_le_pow_right (by norm_num) (by omega))

end Sys2Proof.Machine
end

