-- ==== Sys2Proof/Laws/Completion.lean ====
section
/-! SUPPORT. Frame completion said once: what passing all nine checks means, and the two states `Complete()` can leave. -/

namespace Sys2Proof.Machine

/-- A frame passes when no check fails. -/
theorem firstFailure_eq_none (f : Frame) : firstFailure f = none ↔
    parity f 21 28 = false ∧ parity f 29 35 = false ∧ parity f 36 58 = false ∧
    minuteOf f ≤ 59 ∧ hourOf f ≤ 23 ∧ (1 ≤ dayOf f ∧ dayOf f ≤ 31) ∧
    (1 ≤ weekdayOf f ∧ weekdayOf f ≤ 7) ∧ (1 ≤ monthOf f ∧ monthOf f ≤ 12) ∧ yearOf f ≤ 2099 := by
  simp only [firstFailure, checkParityMinute, checkParityHour, checkParityDate, checkMinute, checkHour,
    checkDay, checkWeekday, checkMonth, checkYear, Option.orElse_eq_orElse]
  simp
  omega

/-- A frame that passes decodes to six fields in range: the registers are wide enough for each (R27, R141). -/
theorem decodedOf_inRange (f : Frame) (h : firstFailure f = none) : inRange (decodedOf f) = true := by
  rw [firstFailure_eq_none] at h
  have hy : 2000 ≤ yearOf f := by simp [yearOf]
  simp only [inRange, decodedOf, BitVec.toNat_ofNat, Bool.and_eq_true, decide_eq_true_eq]
  omega

theorem complete_of_pass (f : Frame) (s : State) (h : firstFailure f = none) :
    complete f s = commit (decodedOf f) s := by
  simp [complete, h]

theorem complete_of_fail (f : Frame) (s : State) (e : TickOutcome) (h : firstFailure f = some e) :
    complete f s = discard e s := by
  simp [complete, h]

/-- An `orElse` gives what one of its two sides gives. -/
theorem orElse_ne {α : Type} {a b : Option α} {x : α} (ha : a ≠ some x) (hb : b ≠ some x) :
    (a <|> b) ≠ some x := by
  cases a <;> simp_all

/-- The label of a failing completion is a parity or a range error. -/
theorem firstFailure_ne (f : Frame) (o : TickOutcome) (h : o.number < 5) : firstFailure f ≠ some o := by
  unfold firstFailure
  refine orElse_ne ?_ (orElse_ne ?_ (orElse_ne ?_ (orElse_ne ?_ (orElse_ne ?_ (orElse_ne ?_
    (orElse_ne ?_ (orElse_ne ?_ ?_)))))))
  · (unfold checkParityMinute; split <;> rintro ⟨⟩); exact absurd h (by decide)
  · (unfold checkParityHour; split <;> rintro ⟨⟩); exact absurd h (by decide)
  · (unfold checkParityDate; split <;> rintro ⟨⟩); exact absurd h (by decide)
  · (unfold checkMinute; split <;> rintro ⟨⟩); exact absurd h (by decide)
  · (unfold checkHour; split <;> rintro ⟨⟩); exact absurd h (by decide)
  · (unfold checkDay; split <;> rintro ⟨⟩); exact absurd h (by decide)
  · (unfold checkWeekday; split <;> rintro ⟨⟩); exact absurd h (by decide)
  · (unfold checkMonth; split <;> rintro ⟨⟩); exact absurd h (by decide)
  · (unfold checkYear; split <;> rintro ⟨⟩); exact absurd h (by decide)

theorem runCheck_snd (c : Option TickOutcome) (s : State) :
    (runCheck c s).2 = if c.isSome then setHealth (setCursor 0 s) else s := by
  cases c <;> rfl

end Sys2Proof.Machine
end

