-- ==== Sys2Proof/Laws/Spec.lean ====
section
/-! SUPPORT. The machine's own reads of the frame agree with the terms claims are stated in: counts of ones, sums, passing, and the time a frame spells. -/

namespace Sys2Proof.Machine

theorem minuteOf_eq_spec (f : Frame) : minuteOf f = specMinute f := minuteOf_eq f
theorem hourOf_eq_spec (f : Frame) : hourOf f = specHour f := hourOf_eq f
theorem dayOf_eq_spec (f : Frame) : dayOf f = specDay f := dayOf_eq f
theorem weekdayOf_eq_spec (f : Frame) : weekdayOf f = specWeekday f := weekdayOf_eq f
theorem monthOf_eq_spec (f : Frame) : monthOf f = specMonth f := monthOf_eq f
theorem yearOf_eq_spec (f : Frame) : yearOf f = specYear f := yearOf_eq f

/-- Counting the ones among the slots `a` to `a + n - 1` of a list by index is summing them. -/
theorem countP_slots (N : Nat) (l : List Bool) (h : l.length = N) (a n : Nat) :
    (List.finRange N).countP (fun i => decide (a ≤ i.val) && decide (i.val < a + n) && l[i.val]?.getD false) =
      (((l.drop a).take n).map Bool.toNat).sum := by
  induction N generalizing l a n with
  | zero => simp_all
  | succ N ih =>
    obtain ⟨b, l, rfl⟩ : ∃ b l', l = b :: l' := by cases l <;> simp_all
    have hl : l.length = N := by simpa using h
    rw [List.finRange_succ, List.countP_cons, List.countP_map]
    cases a with
    | zero =>
      cases n with
      | zero => simp
      | succ n =>
        have := ih l hl 0 n
        simp_all [Function.comp_def, add_comm]
        cases b <;> simp [add_comm]
    | succ a =>
      have := ih l hl a n
      simp_all [Function.comp_def, Nat.add_right_comm _ 1]

/-- The ones of a group are the sum of its slots (R120). -/
theorem ones_eq (f : Frame) (a b : Nat) (h : a ≤ b + 1) :
    ones f a b = ((memRead f a (b + 1 - a)).map Bool.toNat).sum := by
  rw [memRead, ← countP_slots 59 f.toList (by simp), ones]
  apply List.countP_congr
  intro i _
  have : decide (i.val ≤ b) = decide (i.val < a + (b + 1 - a)) := by
    rw [decide_eq_decide]; omega
  simp [this]

/-- A parity tree is the count of ones modulo 2 (R120). -/
theorem parity_eq_ones (f : Frame) (a b : Nat) (h : a ≤ b + 1) :
    parity f a b = decide (ones f a b % 2 = 1) := by
  rw [parity_eq, ones_eq f a b h]

theorem parity_eq_false (f : Frame) (a b : Nat) (h : a ≤ b + 1) :
    parity f a b = false ↔ ones f a b % 2 = 0 := by
  rw [parity_eq_ones f a b h, decide_eq_false_iff_not]; omega

/-- Passing every check of the machine is passing every check of the rules. -/
theorem passes_iff (f : Frame) : Passes f ↔ firstFailure f = none := by
  rw [firstFailure_eq_none, parity_eq_false f 21 28 (by omega), parity_eq_false f 29 35 (by omega),
    parity_eq_false f 36 58 (by omega), minuteOf_eq_spec, hourOf_eq_spec, dayOf_eq_spec, weekdayOf_eq_spec,
    monthOf_eq_spec, yearOf_eq_spec]
  constructor
  · rintro ⟨⟨p1, p2, p3⟩, h⟩; tauto
  · rintro ⟨p1, p2, p3, h1, h2, h3, h4, h5, h6⟩; exact ⟨⟨p1, p2, p3⟩, h1, h2, h3, h4, h5, h6⟩

/-- A passing frame spells what the machine decodes from it: no sum is cut by its register. -/
theorem spells_decodedOf (f : Frame) (h : Passes f) : Spells f (decodedOf f) := by
  obtain ⟨-, h1, h2, h3, h4, h5, h6⟩ := h
  constructor <;> simp only [decodedOf, BitVec.toNat_ofNat, minuteOf_eq_spec, hourOf_eq_spec, dayOf_eq_spec,
    weekdayOf_eq_spec, monthOf_eq_spec, yearOf_eq_spec] <;> omega

/-- A frame spells at most one time. -/
theorem Spells.unique {f : Frame} {d e : DecodedTime} (hd : Spells f d) (he : Spells f e) : d = e := by
  obtain ⟨a1, a2, a3, a4, a5, a6⟩ := hd
  obtain ⟨b1, b2, b3, b4, b5, b6⟩ := he
  cases d; cases e
  simp only [CivilTime.mk.injEq]
  refine ⟨?_, ?_, ?_, ?_, ?_, ?_⟩ <;> apply BitVec.eq_of_toNat_eq <;> simp_all

/-- Completion of a passing frame, in the claims' terms. -/
theorem complete_of_passes {f : Frame} {d : DecodedTime} (s : State) (h : Passes f) (hd : Spells f d) :
    complete f s = (.commit, committed d s) := by
  rw [complete_of_pass f s ((passes_iff f).1 h), (spells_decodedOf f h).unique hd]
  rfl

/-- Completion of any other frame. -/
theorem complete_of_not_passes {f : Frame} (s : State) (h : ¬ Passes f) :
    ∃ e : TickOutcome, firstFailure f = some e ∧ 5 ≤ e.number ∧ complete f s = (e, discarded s) := by
  rw [passes_iff] at h
  obtain ⟨e, he⟩ := Option.ne_none_iff_exists'.1 h
  refine ⟨e, he, ?_, complete_of_fail f s e he⟩
  by_contra hn
  exact firstFailure_ne f e (by omega) he

end Sys2Proof.Machine
end

