-- ==== Sys2Proof/Laws/Canonical.lean ====
section
/-! SUPPORT. Reading a canonical frame, flipping one slot, and frames that agree from slot 21 on. -/

namespace Sys2Proof.Machine

theorem bcdSlots_length (n v : Nat) : (bcdSlots n v).length = n := by simp [bcdSlots]

theorem canonicalSlots_length (t : DecodedTime) : (canonicalSlots t).length = 38 := by simp [canonicalSlots, bcdSlots_length]

/-- A read of a canonical frame from slot 21 on is a segment of its canonical slots. -/
theorem memRead_canonicalFrame (low : Frame) (t : DecodedTime) (a n : Nat) (ha : 21 ≤ a) (h : a + n ≤ 59) :
   memRead (canonicalFrame low t) a n = ((canonicalSlots t).drop (a - 21)).take n := by
  rw [memRead_eq _ _ _ h]
  apply List.ext_getElem
  · simp [canonicalSlots_length]; omega
  · intro i h1 h2
    have hi : i < n := by simpa using h1
    simp only [List.getElem_ofFn, List.getElem_take, List.getElem_drop]
    simp only [canonicalFrame, Vector.getElem_ofFn]
    rw [if_neg (by omega), show a + i - 21 = a - 21 + i by omega, List.getElem?_eq_getElem (by rw [canonicalSlots_length]; omega)]
    rfl

/-- A group with its parity bit passes (R73, R120). -/
theorem parity_self (l : List Bool) : (l ++ [parityBit l]).foldl xor false = false := by
  simp [parityBit, List.foldl_append]

/-- The segment after `l` of a list. -/
theorem take_drop_segment (l m r : List Bool) (a n : Nat) (ha : l.length = a) (hn : m.length = n) : ((l ++ (m ++ r)).drop a).take n = m := by
  subst ha hn; simp

/-- The canonical slots of a value have that weighted sum (R73). -/
theorem weightedSum_bcdSlots : (∀ v < 60, ((([1, 2, 4, 8, 10, 20, 40]).zip (bcdSlots 7 v)).map (fun p => p.1 * p.2.toNat)).sum = v) ∧
   (∀ v < 32, ((([1, 2, 4, 8, 10, 20]).zip (bcdSlots 6 v)).map (fun p => p.1 * p.2.toNat)).sum = v) ∧
   (∀ v < 8, ((([1, 2, 4]).zip (bcdSlots 3 v)).map (fun p => p.1 * p.2.toNat)).sum = v) ∧
   (∀ v < 13, ((([1, 2, 4, 8, 10]).zip (bcdSlots 5 v)).map (fun p => p.1 * p.2.toNat)).sum = v) ∧
   (∀ v < 100, ((([1, 2, 4, 8, 10, 20, 40, 80]).zip (bcdSlots 8 v)).map (fun p => p.1 * p.2.toNat)).sum = v) := by
  refine ⟨?_, ?_, ?_, ?_, ?_⟩ <;> decide

/-- One flip inside a group changes the parity of its ones. -/
theorem ones_flip (f : Frame) (i : Fin 59) (a b : Nat) :
    (a ≤ i.val ∧ i.val ≤ b → ones (f.set i.val (!f[i]) i.isLt) a b % 2 ≠ ones f a b % 2) := by
  intro h
  have split : ∀ g : Frame, ones g a b = ((List.finRange 59).erase i).countP (fun j => decide (a ≤ j.val) && decide (j.val ≤ b) && g[j]) + (if g[i] = true then 1 else 0) := by
    intro g
    rw [ones, (List.perm_cons_erase (List.mem_finRange i)).countP_eq, List.countP_cons]
    simp [h]
  rw [split, split f]
  have : ((List.finRange 59).erase i).countP (fun j => decide (a ≤ j.val) && decide (j.val ≤ b) && (f.set i.val (!f[i]) i.isLt)[j]) = ((List.finRange 59).erase i).countP (fun j => decide (a ≤ j.val) && decide (j.val ≤ b) && f[j]) := by
    apply List.countP_congr
    intro j hj
    have : i.val ≠ j.val := by
      rintro hh
      have := (List.nodup_finRange 59).mem_erase_iff.1 hj
      exact this.1 (Fin.ext hh.symm)
    simp [Vector.getElem_set_ne, this]
  rw [this]
  simp
  cases f[i.val] <;> simp <;> omega

/-- Frames that agree from slot 21 on read alike from there on. -/
theorem memRead_congr (f g : Frame) (a n : Nat) (h : ∀ i : Fin 59, 21 ≤ i.val → f[i] = g[i]) (ha : 21 ≤ a) (hn : a + n ≤ 59) : memRead f a n = memRead g a n := by
  rw [memRead_eq f a n hn, memRead_eq g a n hn]
  congr 1; funext k; exact h ⟨a + k.val, by omega⟩ (by simp; omega)

end Sys2Proof.Machine
end

