-- ==== Sys2Proof/Laws/Encoding.lean ====
section
/-! SUPPORT. Edge words, windows and rows: the parts a round trip through the encoder and the decoder is made of. -/

namespace Sys2Proof

@[simp] theorem Event.ofCode_code (e : Event) : Event.ofCode e.code = some e := by cases e <;> rfl

theorem Event.code_toNat_le (e : Event) : e.code.toNat ≤ 5 := by cases e <;> decide

theorem edgeOperand_edge (code : Nat) (h : code < 4) (x : Timestamp) :
    edgeOperand (code + 4 * x.toNat) = x := by
  apply BitVec.eq_of_toNat_eq
  have := x.isLt
  simp only [edgeOperand, BitVec.toNat_ofNat]
  omega

theorem edge_bits_mod (code : Nat) (h : code < 4) (x : Timestamp) : (code + 4 * x.toNat) % 4 = code := by
  omega

theorem edge_bits_lt (code : Nat) (h : code < 4) (x : Timestamp) : code + 4 * x.toNat < 2 ^ 18 := by
  have := x.isLt
  omega

/-- An EDGE2 word decodes to the row of its edge code, with its whole operand. -/
theorem decodeEdge2_edge (code : Nat) (h : code < 4) (x : Timestamp) :
    decodeEdge2 (code + 4 * x.toNat) =
      match (generalizing := false) code with
      | 0 => .ok (.holdLow x)
      | 1 => .ok (.rise x)
      | 2 => .ok (.fall x)
      | _ => .ok (.holdHigh x) := by
  have h1 := edge_bits_lt code h x
  have h2 := edge_bits_mod code h x
  have h3 := edgeOperand_edge code h x
  rw [decodeEdge2, if_neg (by omega)]
  interval_cases code <;> simp only [h2, h3]

/-- An EDGE2+DELTA word decodes to the row of its edge code and window, with its whole operand. -/
theorem decodeEdge2Delta_edge (code : Nat) (h : code < 4) (x : Timestamp) :
    decodeEdge2Delta (code + 4 * x.toNat) =
      match (generalizing := false) code with
      | 1 => .ok (riseRow x)
      | 2 => .ok (fallRow x)
      | _ => .error .noDeltaOnHold := by
  have h1 := edge_bits_lt code h x
  have h2 := edge_bits_mod code h x
  have h3 := edgeOperand_edge code h x
  rw [decodeEdge2Delta, if_neg (by omega)]
  interval_cases code <;> simp only [h2, h3]

theorem classifyFall_eq_secondMark (g : Timestamp) :
    classifyFall g = .secondMark ↔ 900 ≤ g.toNat ∧ g.toNat ≤ 1100 := by
  unfold classifyFall; split_ifs <;> simp_all

theorem classifyFall_eq_minuteMark (g : Timestamp) :
    classifyFall g = .minuteMark ↔ 1900 ≤ g.toNat ∧ g.toNat ≤ 2100 := by
  unfold classifyFall; split_ifs <;> simp_all; omega

theorem classifyFall_eq_invalid (g : Timestamp) :
    classifyFall g = .invalid ↔
      ¬(900 ≤ g.toNat ∧ g.toNat ≤ 1100) ∧ ¬(1900 ≤ g.toNat ∧ g.toNat ≤ 2100) := by
  unfold classifyFall; split_ifs <;> simp_all

theorem classifyRise_eq_zeroBit (w : Timestamp) :
    classifyRise w = .zeroBit ↔ 70 ≤ w.toNat ∧ w.toNat ≤ 130 := by
  unfold classifyRise; split_ifs <;> simp_all

theorem classifyRise_eq_oneBit (w : Timestamp) :
    classifyRise w = .oneBit ↔ 170 ≤ w.toNat ∧ w.toNat ≤ 230 := by
  unfold classifyRise; split_ifs <;> simp_all; omega

theorem classifyRise_eq_invalid (w : Timestamp) :
    classifyRise w = .invalid ↔
      ¬(70 ≤ w.toNat ∧ w.toNat ≤ 130) ∧ ¬(170 ≤ w.toNat ∧ w.toNat ≤ 230) := by
  unfold classifyRise; split_ifs <;> simp_all

/-- A falling edge is never `NoEvent` and never a bit (R82). -/
theorem classifyFall_cases (g : Timestamp) :
    classifyFall g = .secondMark ∨ classifyFall g = .minuteMark ∨ classifyFall g = .invalid := by
  unfold classifyFall; split_ifs <;> simp

/-- A rising edge is never `NoEvent` and never a mark (R83). -/
theorem classifyRise_cases (w : Timestamp) :
    classifyRise w = .zeroBit ∨ classifyRise w = .oneBit ∨ classifyRise w = .invalid := by
  unfold classifyRise; split_ifs <;> simp

end Sys2Proof
end

