-- ==== Sys2Proof/Laws/Exec.lean ====
section
/-! SUPPORT. What `Process`, `exec` and `step` can do, said once; later proofs cite these and unfold no meaning. -/

namespace Sys2Proof.Machine

/-! ## Process -/

theorem processSecondMark_of_lt (s : State) (c : Cursor) (h : c.val = s.cursor.val + 1) :
    processSecondMark s = (.okNone, { s with cursor := c }) := by
  have hc : s.cursor.val + 1 < 59 := h ▸ c.isLt
  rw [processSecondMark, dif_pos hc, setCursor, show (⟨s.cursor.val + 1, hc⟩ : Cursor) = c from Fin.ext h.symm]

theorem processSecondMark_of_max (s : State) (h : s.cursor.val = 58) :
    processSecondMark s = (.frameErrorOverflow, discarded s) := by
  rw [processSecondMark, dif_neg (by omega)]; rfl

theorem processMinuteMark_of_ne (s : State) (h : s.cursor.val ≠ 58) :
    processMinuteMark s = (.frameErrorPremature, discarded s) := by
  rw [processMinuteMark, if_neg h]; rfl

theorem processMinuteMark_of_max (s : State) (h : s.cursor.val = 58) :
    processMinuteMark s = complete s.frame s := by
  rw [processMinuteMark, if_pos h]

/-- Everything `Process` can do, by event (R100, R178). -/
theorem process_cases (ev : Event) (s : State) :
    (ev = .noEvent ∧ process ev s = (.okNone, s)) ∨
    (ev = .secondMark ∧ ∃ c : Cursor, c.val = s.cursor.val + 1 ∧ process ev s = (.okNone, { s with cursor := c })) ∨
    (ev = .secondMark ∧ s.cursor.val = 58 ∧ process ev s = (.frameErrorOverflow, discarded s)) ∨
    (ev = .zeroBit ∧ process ev s = (.okNone, writeSlot false s)) ∨
    (ev = .oneBit ∧ process ev s = (.okNone, writeSlot true s)) ∨
    (ev = .minuteMark ∧ ∃ e : TickOutcome, 4 ≤ e.number ∧ ¬(s.cursor.val = 58 ∧ Passes s.frame) ∧
      process ev s = (e, discarded s)) ∨
    (ev = .minuteMark ∧ s.cursor.val = 58 ∧ Passes s.frame ∧
      process ev s = (.commit, committed (decodedOf s.frame) s)) ∨
    (ev = .invalid ∧ process ev s = (.invalidClassification, { s with healthFlag := true })) := by
  cases ev with
  | noEvent => exact .inl ⟨rfl, rfl⟩
  | secondMark =>
    by_cases h : s.cursor.val = 58
    · exact .inr (.inr (.inl ⟨rfl, h, processSecondMark_of_max s h⟩))
    · have hc : s.cursor.val + 1 < 59 := by omega
      exact .inr (.inl ⟨rfl, ⟨s.cursor.val + 1, hc⟩, rfl, processSecondMark_of_lt s _ rfl⟩)
  | zeroBit => exact .inr (.inr (.inr (.inl ⟨rfl, rfl⟩)))
  | oneBit => exact .inr (.inr (.inr (.inr (.inl ⟨rfl, rfl⟩))))
  | minuteMark =>
    by_cases h : s.cursor.val = 58
    · by_cases hp : Passes s.frame
      · refine .inr (.inr (.inr (.inr (.inr (.inr (.inl ⟨rfl, h, hp, ?_⟩))))))
        exact (processMinuteMark_of_max s h).trans (complete_of_passes s hp (spells_decodedOf _ hp))
      · obtain ⟨e, -, he, hc⟩ := complete_of_not_passes s hp
        refine .inr (.inr (.inr (.inr (.inr (.inl ⟨rfl, e, by omega, fun hh => hp hh.2, ?_⟩)))))
        exact (processMinuteMark_of_max s h).trans hc
    · exact .inr (.inr (.inr (.inr (.inr (.inl ⟨rfl, .frameErrorPremature, by decide, fun hh => h hh.1,
        processMinuteMark_of_ne s h⟩)))))
  | invalid => exact .inr (.inr (.inr (.inr (.inr (.inr (.inr ⟨rfl, rfl⟩))))))

/-- No event writes a sampler register (R3). -/
theorem process_sampler (ev : Event) (s : State) :
    (process ev s).2.lastLevel = s.lastLevel ∧ (process ev s).2.tRef = s.tRef ∧
      (process ev s).2.stimulus = s.stimulus := by
  obtain ⟨_, h⟩ | ⟨_, c, _, h⟩ | ⟨_, _, h⟩ | ⟨_, h⟩ | ⟨_, h⟩ | ⟨_, e, _, _, h⟩ | ⟨_, _, _, h⟩ | ⟨_, h⟩ :=
    process_cases ev s <;> rw [h] <;> exact ⟨rfl, rfl, rfl⟩

/-! ## exec -/

/-- `s1` is `s` but for the sampler's registers. -/
structure Sampled (s s1 : State) : Prop where
  frame : s1.frame = s.frame
  cursor : s1.cursor = s.cursor
  healthFlag : s1.healthFlag = s.healthFlag
  decoded : s1.decoded = s.decoded
  stimulus : s1.stimulus = s.stimulus

/-- A check of completion on its own passes or discards. -/
theorem runCheck_cases (c : Option TickOutcome) (s : State) (h : ∀ o, c = some o → 5 ≤ o.number) :
    runCheck c s = (.okNone, s) ∨ ∃ e : TickOutcome, 5 ≤ e.number ∧ runCheck c s = (e, discarded s) := by
  cases c with
  | none => exact .inl rfl
  | some e => exact .inr ⟨e, h e rfl, rfl⟩

theorem number_of_ite {p : Prop} [Decidable p] {e : TickOutcome} (he : 5 ≤ e.number) (o : TickOutcome)
    (h : (if p then some e else none) = some o) : 5 ≤ o.number := by
  split at h <;> simp_all

/-- Everything `exec` can do: a reserved code is refused; an operation with an event is `Process` of that event
on the sampled registers; a unit of completion passes, discards, or commits its frame. -/
theorem exec_cases (i : Instr) (s : State) :
    (∃ c, (i = .reservedEvent6 ∨ i = .reservedEvent7) ∧ exec i s = .refused (.reservedEventCode c)) ∨
    (∃ ev s1, eventOf i s = some ev ∧ Sampled s s1 ∧ outcomeOf i s = some (process ev s1).1 ∧
      exec i s = .next (process ev s1).2) ∨
    (eventOf i s = none ∧ outcomeOf i s = some .okNone ∧ exec i s = .next s) ∨
    (eventOf i s = none ∧ ∃ e : TickOutcome, 5 ≤ e.number ∧ outcomeOf i s = some e ∧
      exec i s = .next (discarded s)) ∨
    (∃ f, i = .frame f ∧ Passes f ∧ outcomeOf i s = some .commit ∧
      exec i s = .next (committed (decodedOf f) s)) := by
  have unit : ∀ c : Option TickOutcome, (∀ o, c = some o → 5 ≤ o.number) → eventOf i s = none →
      outcomeOf i s = some (runCheck c s).1 → exec i s = .next (runCheck c s).2 →
      (eventOf i s = none ∧ outcomeOf i s = some .okNone ∧ exec i s = .next s) ∨
      (eventOf i s = none ∧ ∃ e : TickOutcome, 5 ≤ e.number ∧ outcomeOf i s = some e ∧
        exec i s = .next (discarded s)) := by
    intro c hc h1 h2 h3
    obtain h | ⟨e, he, h⟩ := runCheck_cases c s hc
    · rw [h] at h2 h3; exact .inl ⟨h1, h2, h3⟩
    · rw [h] at h2 h3; exact .inr ⟨h1, e, he, h2, h3⟩
  have same : Sampled s s := ⟨rfl, rfl, rfl, rfl, rfl⟩
  cases i with
  | noEvent => exact .inr (.inl ⟨_, s, rfl, same, rfl, rfl⟩)
  | secondMark => exact .inr (.inl ⟨_, s, rfl, same, rfl, rfl⟩)
  | zeroBit => exact .inr (.inl ⟨_, s, rfl, same, rfl, rfl⟩)
  | oneBit => exact .inr (.inl ⟨_, s, rfl, same, rfl, rfl⟩)
  | minuteMark => exact .inr (.inl ⟨_, s, rfl, same, rfl, rfl⟩)
  | invalid => exact .inr (.inl ⟨_, s, rfl, same, rfl, rfl⟩)
  | reservedEvent6 => exact .inl ⟨_, .inl rfl, rfl⟩
  | reservedEvent7 => exact .inl ⟨_, .inr rfl, rfl⟩
  | holdLow ts => exact .inr (.inl ⟨_, sampleHold false s, rfl, ⟨rfl, rfl, rfl, rfl, rfl⟩, rfl, rfl⟩)
  | rise ts => exact .inr (.inl ⟨_, sampleRise s, rfl, ⟨rfl, rfl, rfl, rfl, rfl⟩, rfl, rfl⟩)
  | fall ts => exact .inr (.inl ⟨_, sampleFall ts s, rfl, ⟨rfl, rfl, rfl, rfl, rfl⟩, rfl, rfl⟩)
  | holdHigh ts => exact .inr (.inl ⟨_, sampleHold true s, rfl, ⟨rfl, rfl, rfl, rfl, rfl⟩, rfl, rfl⟩)
  | fallSecondMark d => exact .inr (.inl ⟨_, sampleFall (s.tRef + d) s, rfl, ⟨rfl, rfl, rfl, rfl, rfl⟩, rfl, rfl⟩)
  | fallMinuteMark d => exact .inr (.inl ⟨_, sampleFall (s.tRef + d) s, rfl, ⟨rfl, rfl, rfl, rfl, rfl⟩, rfl, rfl⟩)
  | fallInvalid d => exact .inr (.inl ⟨_, sampleFall (s.tRef + d) s, rfl, ⟨rfl, rfl, rfl, rfl, rfl⟩, rfl, rfl⟩)
  | riseZeroBit d => exact .inr (.inl ⟨_, sampleRise s, rfl, ⟨rfl, rfl, rfl, rfl, rfl⟩, rfl, rfl⟩)
  | riseOneBit d => exact .inr (.inl ⟨_, sampleRise s, rfl, ⟨rfl, rfl, rfl, rfl, rfl⟩, rfl, rfl⟩)
  | riseInvalid d => exact .inr (.inl ⟨_, sampleRise s, rfl, ⟨rfl, rfl, rfl, rfl, rfl⟩, rfl, rfl⟩)
  | frame f =>
    by_cases hp : Passes f
    · have h := complete_of_passes s hp (spells_decodedOf f hp)
      refine .inr (.inr (.inr (.inr ⟨f, rfl, hp, ?_, ?_⟩)))
      · exact congrArg (fun r => some r.1) h
      · exact congrArg (fun r => Host.Outcome.next r.2) h
    · obtain ⟨e, -, he, h⟩ := complete_of_not_passes s hp
      refine .inr (.inr (.inr (.inl ⟨rfl, e, he, ?_, ?_⟩)))
      · exact congrArg (fun r => some r.1) h
      · exact congrArg (fun r => Host.Outcome.next r.2) h
  | parityMinute f =>
    obtain h | h := unit (checkParityMinute f) (fun o => number_of_ite (by decide) o) rfl rfl rfl
    exacts [.inr (.inr (.inl h)), .inr (.inr (.inr (.inl h)))]
  | parityHour f =>
    obtain h | h := unit (checkParityHour f) (fun o => number_of_ite (by decide) o) rfl rfl rfl
    exacts [.inr (.inr (.inl h)), .inr (.inr (.inr (.inl h)))]
  | parityDate f =>
    obtain h | h := unit (checkParityDate f) (fun o => number_of_ite (by decide) o) rfl rfl rfl
    exacts [.inr (.inr (.inl h)), .inr (.inr (.inr (.inl h)))]
  | fieldMinute f =>
    obtain h | h := unit (checkMinute f) (fun o => number_of_ite (by decide) o) rfl rfl rfl
    exacts [.inr (.inr (.inl h)), .inr (.inr (.inr (.inl h)))]
  | fieldHour f =>
    obtain h | h := unit (checkHour f) (fun o => number_of_ite (by decide) o) rfl rfl rfl
    exacts [.inr (.inr (.inl h)), .inr (.inr (.inr (.inl h)))]
  | fieldDay f =>
    obtain h | h := unit (checkDay f) (fun o => number_of_ite (by decide) o) rfl rfl rfl
    exacts [.inr (.inr (.inl h)), .inr (.inr (.inr (.inl h)))]
  | fieldWeekday f =>
    obtain h | h := unit (checkWeekday f) (fun o => number_of_ite (by decide) o) rfl rfl rfl
    exacts [.inr (.inr (.inl h)), .inr (.inr (.inr (.inl h)))]
  | fieldMonth f =>
    obtain h | h := unit (checkMonth f) (fun o => number_of_ite (by decide) o) rfl rfl rfl
    exacts [.inr (.inr (.inl h)), .inr (.inr (.inr (.inl h)))]
  | fieldYear f =>
    obtain h | h := unit (checkYear f) (fun o => number_of_ite (by decide) o) rfl rfl rfl
    exacts [.inr (.inr (.inl h)), .inr (.inr (.inr (.inl h)))]

/-! ## step -/

/-- The edge row of a tick (R61). -/
def tickInstr (lastLevel level : Bool) (ts : Timestamp) : Instr :=
  match lastLevel, level with
  | false, false => .holdLow ts
  | false, true => .rise ts
  | true, false => .fall ts
  | true, true => .holdHigh ts

theorem edgeCode_lt (a b : Bool) : edgeCode a b < 4 := by cases a <;> cases b <;> decide

/-- The word of a tick decodes to its edge row. -/
theorem decode_tick (a b : Bool) (ts : Timestamp) :
    decode (edgeWord .edge2 (edgeCode a b) ts) = .ok (tickInstr a b ts) := by
  have := decodeEdge2_edge (edgeCode a b) (edgeCode_lt a b) ts
  cases a <;> cases b <;> exact this

/-- At a clock edge with a tick, a step runs the edge row of the stored and the new level. -/
theorem step_of_tick (s : State) (level : Bool) (ts : Timestamp) (rest : List Stimulus)
    (h : s.stimulus = .clock false true level ts :: rest) :
    step s = exec (tickInstr s.lastLevel level ts) (consume s) := by
  simp [step, fetch, h, decode_tick]

theorem nextInstr_of_tick (s : State) (level : Bool) (ts : Timestamp) (rest : List Stimulus)
    (h : s.stimulus = .clock false true level ts :: rest) :
    nextInstr s = some (tickInstr s.lastLevel level ts) := by
  simp [nextInstr, fetch, h, decode_tick, Except.toOption]

/-- An edge row is the whole tick: `Classify`, then `Process` (R10, R80). -/
theorem exec_tickInstr (s : State) (level : Bool) (ts : Timestamp) :
    exec (tickInstr s.lastLevel level ts) s = .next (tick level ts s).2 ∧
    eventOf (tickInstr s.lastLevel level ts) s = some (classify level ts s).1 ∧
    outcomeOf (tickInstr s.lastLevel level ts) s = some (tick level ts s).1 := by
  obtain ⟨l, tr, fr, c, hf, d, st⟩ := s
  cases l <;> cases level <;> exact ⟨rfl, rfl, rfl⟩

/-- A step that answers a next state is idle, a reset edge, or one decoded operation. -/
theorem step_cases (s : State) :
    (fetch s = .idle ∧ step s = .next (consume s)) ∨
    (fetch s = .reset ∧ step s = .next (resetRegisters (consume s))) ∨
    (∃ w i, fetch s = .word w ∧ decode w = .ok i ∧ nextInstr s = some i ∧ step s = exec i (consume s)) ∨
    (∃ w e, fetch s = .word w ∧ decode w = .error e ∧ step s = .refused (.undecodable e)) := by
  cases h : fetch s with
  | idle => exact .inl ⟨rfl, by simp [step, h]⟩
  | reset => exact .inr (.inl ⟨rfl, by simp [step, h]⟩)
  | word w =>
    cases hd : decode w with
    | ok i => exact .inr (.inr (.inl ⟨w, i, rfl, hd, by simp [nextInstr, h, hd, Except.toOption], by simp [step, h, hd]⟩))
    | error e => exact .inr (.inr (.inr ⟨w, e, rfl, hd, by simp [step, h, hd]⟩))

/-- What an operation does is not affected by taking its input off the list. -/
theorem eventOf_consume (i : Instr) (s : State) : eventOf i (consume s) = eventOf i s := by cases i <;> rfl

end Sys2Proof.Machine
end

