-- ==== Sys2Proof/Laws/PerInstr.lean ====
section
/-! SUPPORT. Per-instruction family EncodeFits: an encoded word has no bit above its format's width. -/

namespace Sys2Proof.Laws.EncodeFits

open Sys2Proof.Machine (toBits_lt)

/-- The word of `i` fits its format. -/
def Statement (i : Instr) : Prop := (encode i).bits < 2 ^ (encode i).fmt.width

theorem noEvent : Statement .noEvent := by unfold Statement; decide
theorem secondMark : Statement .secondMark := by unfold Statement; decide
theorem zeroBit : Statement .zeroBit := by unfold Statement; decide
theorem oneBit : Statement .oneBit := by unfold Statement; decide
theorem minuteMark : Statement .minuteMark := by unfold Statement; decide
theorem invalid : Statement .invalid := by unfold Statement; decide
theorem reservedEvent6 : Statement .reservedEvent6 := by unfold Statement; decide
theorem reservedEvent7 : Statement .reservedEvent7 := by unfold Statement; decide
theorem holdLow (ts : Timestamp) : Statement (.holdLow ts) := edge_bits_lt 0 (by decide) ts
theorem rise (ts : Timestamp) : Statement (.rise ts) := edge_bits_lt 1 (by decide) ts
theorem fall (ts : Timestamp) : Statement (.fall ts) := edge_bits_lt 2 (by decide) ts
theorem holdHigh (ts : Timestamp) : Statement (.holdHigh ts) := edge_bits_lt 3 (by decide) ts
theorem fallSecondMark (d : Timestamp) : Statement (.fallSecondMark d) := edge_bits_lt 2 (by decide) d
theorem fallMinuteMark (d : Timestamp) : Statement (.fallMinuteMark d) := edge_bits_lt 2 (by decide) d
theorem fallInvalid (d : Timestamp) : Statement (.fallInvalid d) := edge_bits_lt 2 (by decide) d
theorem riseZeroBit (d : Timestamp) : Statement (.riseZeroBit d) := edge_bits_lt 1 (by decide) d
theorem riseOneBit (d : Timestamp) : Statement (.riseOneBit d) := edge_bits_lt 1 (by decide) d
theorem riseInvalid (d : Timestamp) : Statement (.riseInvalid d) := edge_bits_lt 1 (by decide) d
theorem frame (f : Frame) : Statement (.frame f) := toBits_lt f
theorem parityMinute (f : Frame) : Statement (.parityMinute f) := toBits_lt f
theorem parityHour (f : Frame) : Statement (.parityHour f) := toBits_lt f
theorem parityDate (f : Frame) : Statement (.parityDate f) := toBits_lt f
theorem fieldMinute (f : Frame) : Statement (.fieldMinute f) := toBits_lt f
theorem fieldHour (f : Frame) : Statement (.fieldHour f) := toBits_lt f
theorem fieldDay (f : Frame) : Statement (.fieldDay f) := toBits_lt f
theorem fieldWeekday (f : Frame) : Statement (.fieldWeekday f) := toBits_lt f
theorem fieldMonth (f : Frame) : Statement (.fieldMonth f) := toBits_lt f
theorem fieldYear (f : Frame) : Statement (.fieldYear f) := toBits_lt f

end Sys2Proof.Laws.EncodeFits
end

