-- ==== Sys2Proof/Laws/Ports.lean ====
section
/-! SUPPORT. The outputs of a step in terms of the operation it runs, and a clock edge with a tick as `Classify` and `Process`. -/

namespace Sys2Proof.Machine

/-- A label depends on the frame buffer and the cursor alone. -/
theorem process_fst_congr (ev : Event) (s t : State) (h1 : t.frame = s.frame) (h2 : t.cursor = s.cursor) :
    (process ev t).1 = (process ev s).1 := by
  cases ev <;> simp only [process]
  · rfl
  · unfold processSecondMark; simp only [h2]; split <;> rfl
  · rfl
  · rfl
  · unfold processMinuteMark; simp only [h1, h2]; split
    · unfold complete; split <;> rfl
    · rfl
  · rfl

theorem runCheck_fst_congr (c : Option TickOutcome) (s t : State) : (runCheck c t).1 = (runCheck c s).1 := by
  cases c <;> rfl

/-- Taking an operation's input off the list does not change its label. -/
theorem outcomeOf_consume (i : Instr) (s : State) : outcomeOf i (consume s) = outcomeOf i s := by
  cases i <;> simp only [outcomeOf]
  case noEvent => rfl
  case secondMark => exact congrArg some (process_fst_congr .secondMark s _ rfl rfl)
  case zeroBit => rfl
  case oneBit => rfl
  case minuteMark => exact congrArg some (process_fst_congr .minuteMark s _ rfl rfl)
  case invalid => rfl
  case holdLow => rfl
  case holdHigh => rfl
  case rise ts => exact congrArg some (process_fst_congr (classifyRise (deltaOf ts s)) (sampleRise s) (sampleRise (consume s)) rfl rfl)
  case fall ts => exact congrArg some (process_fst_congr (classifyFall (deltaOf ts s)) (sampleFall ts s) (sampleFall ts (consume s)) rfl rfl)
  case fallSecondMark d => exact congrArg some (process_fst_congr .secondMark (sampleFall (s.tRef + d) s) (sampleFall (s.tRef + d) (consume s)) rfl rfl)
  case fallMinuteMark d => exact congrArg some (process_fst_congr .minuteMark (sampleFall (s.tRef + d) s) (sampleFall (s.tRef + d) (consume s)) rfl rfl)
  case fallInvalid d => rfl
  case riseZeroBit => rfl
  case riseOneBit => rfl
  case riseInvalid => rfl
  case frame f => unfold complete; split <;> rfl
  all_goals exact congrArg some (runCheck_fst_congr _ _ _)

theorem nextOutcome_eq (s : State) (i : Instr) (h : nextInstr s = some i) : nextOutcome s = outcomeOf i s := by
  simp [nextOutcome, h]

theorem nextEvent_eq (s : State) (i : Instr) (h : nextInstr s = some i) : nextEvent s = eventOf i s := by
  simp [nextEvent, h]

theorem commitStrobe_word (s : State) (w) (h : fetch s = .word w) :
   commitStrobe s = (nextOutcome s).map (fun o => o == .commit) := by simp [commitStrobe, h]

/-- The commit strobe of a step is the label of its operation (R138). -/
theorem commitStrobe_eq (s : State) (i : Instr) (w) (h : fetch s = .word w) (hn : nextInstr s = some i) :
   commitStrobe s = (outcomeOf i s).map (fun o => o == .commit) := by
  rw [commitStrobe_word s w h, nextOutcome_eq s i hn]

theorem number_ne_commit {e : TickOutcome} (h : 3 ≤ e.number) : e ≠ .commit := by rintro rfl; revert h; decide

/-- The store of a bit event (R42). -/
theorem slotWritten_of_writeSlot (s : State) (b : Bool) (t : State) (h : t.frame = (writeSlot b s).frame) : SlotWritten s t b := by
  refine ⟨by simp [h], fun j hj => ?_⟩
  have : s.cursor.val ≠ j.val := fun h => hj (Fin.ext h.symm)
  simp [h, this]

/-- R64 on numerals. -/
theorem gap_eq (ts : Timestamp) (s : State) : (ts.toNat + 65536 - s.tRef.toNat) % 65536 = (deltaOf ts s).toNat := by
  have := s.tRef.isLt; have := ts.isLt
  simp only [deltaOf, BitVec.toNat_sub]; omega

/-- `delta` of the timestamp `tRef + d` is `d` (R64). -/
theorem delta_add (s : State) (d : Timestamp) : deltaOf (s.tRef + d) s = d := by
  simp only [deltaOf]; bv_omega

theorem step_eq_tick (s : State) (level : Bool) (ts : Timestamp) (rest : List Stimulus)
    (h : s.stimulus = .clock false true level ts :: rest) :
   step s = .next (tick level ts (consume s)).2 := by
  rw [step_of_tick s _ ts rest h]
  exact (exec_tickInstr (consume s) level ts).1

/-- The classification reads the sampler's registers alone. -/
theorem classify_fst (l : Bool) (ts : Timestamp) (s t : State) (h1 : t.lastLevel = s.lastLevel) (h2 : t.tRef = s.tRef) : (classify l ts t).1 = (classify l ts s).1 := by
  simp only [classify, h1, h2]; split_ifs <;> rfl

/-- `NoEvent` exactly when the level holds (R81). -/
theorem classify_noEvent (level ts s) : (classify level ts s).1 = .noEvent ↔ level = s.lastLevel := by
  unfold classify
  split_ifs with h1 h2
  · simp [h1]
  · simp only [h1, iff_false]; obtain h | h | h := classifyFall_cases (ts - s.tRef) <;> rw [h] <;> simp
  · simp only [h1, iff_false]; obtain h | h | h := classifyRise_cases (ts - s.tRef) <;> rw [h] <;> simp

theorem nextEvent_tick (s : State) (level : Bool) (ts : Timestamp) (rest : List Stimulus)
    (h : s.stimulus = .clock false true level ts :: rest) : nextEvent s = some (classify level ts s).1 := by
  rw [nextEvent_eq _ _ (nextInstr_of_tick s level ts rest h)]
  exact (exec_tickInstr s level ts).2.1

/-- A clock edge that keeps the level changes no register and has no event (R10, R81). -/
theorem step_of_quiet (s : State) (x : Stimulus) (rest : List Stimulus) (h : s.stimulus = x :: rest)
    (hx : x.quietAt s.lastLevel = true) : step s = .next { s with stimulus := rest } := by
  cases x with
  | clock rst tick level ts =>
    cases rst <;> cases tick <;> simp [Stimulus.quietAt] at hx
    · simp [step, fetch, h, consume]
    · subst hx
      rw [step_eq_tick s _ ts rest h, tick, classify]
      simp [process, processNoEvent, consume, h]
  | event => simp [Stimulus.quietAt] at hx
  | delta => simp [Stimulus.quietAt] at hx
  | unit => simp [Stimulus.quietAt] at hx

/-- One step of a run. -/
theorem run_succ_of_next {s t : State} (k : Nat) (h : step s = .next t) :
    Sys2Proof.core.run (k + 1) s = Sys2Proof.core.run k t := by
  have : Sys2Proof.core.step s = .next t := h
  simp only [Host.Core.run, this]

/-- Clock edges that keep the level can be dropped from a waveform (R81). -/
theorem run_quiet (s : State) (quiet rest : List Stimulus) (h : s.stimulus = quiet ++ rest)
    (hq : ∀ x ∈ quiet, x.quietAt s.lastLevel = true) :
    Sys2Proof.core.run quiet.length s = .next { s with stimulus := rest } := by
  induction quiet generalizing s with
  | nil => simp only [List.nil_append] at h; subst h; rfl
  | cons x quiet ih =>
    rw [List.length_cons, run_succ_of_next _ (step_of_quiet s x (quiet ++ rest) h (hq x (by simp)))]
    exact ih _ rfl (fun y hy => hq y (by simp [hy]))

end Sys2Proof.Machine
end

