-- ==== Sys2Proof/Laws/Projector.lean ====
section
/-! SUPPORT. The parts of the projection: ranges, weekday, month lengths, leap years. -/

namespace Sys2Proof.Machine

theorem inRange_iff (t : DecodedTime) : inRange t = true ↔
    (2000 ≤ t.year.toNat ∧ t.year.toNat ≤ 2099) ∧ (1 ≤ t.month.toNat ∧ t.month.toNat ≤ 12) ∧ (1 ≤ t.day.toNat ∧ t.day.toNat ≤ 31) ∧
      (1 ≤ t.weekday.toNat ∧ t.weekday.toNat ≤ 7) ∧ t.hour.toNat ≤ 23 ∧ t.minute.toNat ≤ 59 := by
  simp [inRange, and_assoc]

/-- The looked-up lengths are those of the calendar. -/
theorem daysIn_some (m : Nat) (h1 : 1 ≤ m) (h2 : m ≤ 11) (h3 : m ≠ 2) : ∃ d, daysIn m = some d ∧ d.toNat = monthLength 2000 m := by
  interval_cases m <;> first | exact absurd rfl h3 | exact ⟨_, rfl, by decide⟩

/-- R153 on numerals. -/
theorem weekdayBefore_toNat (w : BitVec 3) (h : 1 ≤ w.toNat) : (weekdayBefore w).toNat = if w.toNat = 1 then 7 else w.toNat - 1 := by
  unfold weekdayBefore
  revert h; revert w; decide

/-- R159 as a proposition. -/
theorem leap_iff (y : Nat) : leap y = true ↔ y % 4 = 0 ∧ (y % 100 ≠ 0 ∨ y % 400 = 0) := by simp [leap]

/-- Within the legal ranges `Project` is R164. -/
theorem project_eq (t : DecodedTime) (h : inRange t = true) : project t = projectInRange t := by
  simp [project, h]

/-- The days before a month, one month further. -/
theorem monthLength_sum_succ (y m : Nat) : ((List.range (m+1)).map (fun k => monthLength y (k + 1))).sum = ((List.range m).map (fun k => monthLength y (k + 1))).sum + monthLength y (m+1) := by
  rw [List.range_succ]; simp

theorem monthLength_sum_eleven (y : Nat) : ((List.range 11).map (fun k => monthLength y (k + 1))).sum = if leap y then 335 else 334 := by
  simp only [List.range_succ, List.range_zero]; simp [monthLength]; split_ifs <;> rfl

end Sys2Proof.Machine
end

