-- ==== Sys2Proof/Laws/Run.lean ====
section
/-! SUPPORT. Runs of operations: appending, and one operation of each shape a feed is made of. -/

namespace Sys2Proof.Machine

theorem execAll_append (a b : List Instr) (s t : State) (h : execAll a s = .next t) : execAll (a ++ b) s = execAll b t := by
  induction a generalizing s with
  | nil => cases h; rfl
  | cons i a ih =>
    simp only [execAll, List.cons_append] at h ⊢
    cases he : exec i s with
    | next u => rw [he] at h; simp only at h ⊢; exact ih u h
    | fault e => rw [he] at h; cases h
    | refused e => rw [he] at h; cases h

theorem exec_secondMark_of_lt (s : State) (c : Cursor) (h : c.val = s.cursor.val + 1) : exec .secondMark s = .next { s with cursor := c } :=
  congrArg (fun r : TickOutcome × State => Host.Outcome.next r.2) (processSecondMark_of_lt s c h)

theorem exec_bitEvent (b : Bool) (s : State) : exec (bitEvent b) s = .next (writeSlot b s) := by cases b <;> rfl

end Sys2Proof.Machine
end

