-- ==== Sys2Proof/Tests/Slice0.lean ====
section
/-! SUPPORT. The model's own tests: ill-formed terms refused, words written out from the spec's encodings, vectors of spec/95_test_vectors.md, and for each statement with hypotheses a state and operands that meet them. -/

namespace Sys2Proof.Tests

open Sys2Proof.Machine

/-! ## Helpers -/

/-- A frame from its 59 characters, slot 0 first (R75). -/
def frameOf (l : List Nat) : Frame := Vector.ofFn (fun i : Fin 59 => l.getD i.val 0 == 1)

/-- Slots 0 to 20 of fA. -/
def lowA : List Nat := [0, 0, 0, 0, 0, 0, 0, 0, 0, 0, 0, 0, 0, 0, 0, 0, 0, 0, 1, 0, 1]

/-- Slots 36 to 58 of fA: day 1, weekday 5, month 3, year 24, parity. -/
def dateA : List Nat := [1, 0, 0, 0, 0, 0] ++ [1, 0, 1] ++ [1, 1, 0, 0, 0] ++ [0, 0, 1, 0, 0, 1, 0, 0] ++ [1]

/-- V-D1 of 95_test_vectors.md. -/
def fA : Frame := frameOf (lowA ++ [1, 1, 1, 0, 1, 0, 0, 0] ++ [1, 1, 0, 0, 0, 0, 0] ++ dateA)

/-- V-D3: the largest time. -/
def fC : Frame := frameOf ([0, 0, 0, 0, 0, 0, 0, 0, 0, 0, 0, 0, 0, 0, 0, 0, 0, 0, 0, 0, 1] ++ [1, 0, 0, 1, 1, 0, 1, 0] ++
  [1, 1, 0, 0, 0, 1, 1] ++ [1, 0, 0, 0, 1, 1, 0, 0, 1, 0, 1, 0, 0, 1] ++ [1, 0, 0, 1, 1, 0, 0, 1, 0])

/-- V-D5: fA with minute 60, hour 24, parities good in both. -/
def fM60 : Frame := frameOf (lowA ++ [0, 0, 0, 0, 0, 1, 1, 0] ++ [1, 1, 0, 0, 0, 0, 0] ++ dateA)
def fH24 : Frame := frameOf (lowA ++ [1, 1, 1, 0, 1, 0, 0, 0] ++ [0, 0, 1, 0, 0, 1, 0] ++ dateA)

/-- fA with slots 36 to 58 replaced. -/
def withDate (l : List Nat) : Frame := frameOf (lowA ++ [1, 1, 1, 0, 1, 0, 0, 0] ++ [1, 1, 0, 0, 0, 0, 0] ++ l)

/-- fA with one slot flipped. -/
def flipA (i : Fin 59) : Frame := fA.set i.val (!fA[i]) i.isLt

def zeros : Frame := Vector.replicate 59 false

def timeA : DecodedTime := { year := 2024, month := 3, day := 1, weekday := 5, hour := 3, minute := 17 }
def timeC : DecodedTime := { year := 2099, month := 12, day := 31, weekday := 4, hour := 23, minute := 59 }
def timeOld : DecodedTime := { year := 2023, month := 7, day := 4, weekday := 2, hour := 9, minute := 41 }

/-- A state of the event-level vectors: fA in the buffer, `timeOld` decoded. -/
def st (cursor : Cursor) (health : Bool) : State :=
  { lastLevel := true, tRef := 10000, frame := fA, cursor := cursor, healthFlag := health, decoded := timeOld, stimulus := [] }

/-- The next state of an outcome. -/
def nextOf (o : Host.Outcome State Fault Refusal) : Option State :=
  match o with
  | .next s => some s
  | .fault _ => none
  | .refused _ => none

/-- The reason of a refusal. -/
def refusalOf (o : Host.Outcome State Fault Refusal) : Option Refusal :=
  match o with
  | .next _ => none
  | .fault _ => none
  | .refused r => some r

/-- The tick `T(level, ts)` from `s`, by one step. -/
def tickFrom (s : State) (level : Bool) (ts : Timestamp) : State := { s with stimulus := [.clock false true level ts] }

/-! ## WellFormed: an ill-formed term for each check -/

theorem test_illFormed_fallSecondMark : Instr.wellFormed (.fallSecondMark 899) = false ∧ Instr.wellFormed (.fallSecondMark 1101) = false := by decide
theorem test_illFormed_fallMinuteMark : Instr.wellFormed (.fallMinuteMark 1899) = false ∧ Instr.wellFormed (.fallMinuteMark 2101) = false := by decide
theorem test_illFormed_fallInvalid : Instr.wellFormed (.fallInvalid 900) = false ∧ Instr.wellFormed (.fallInvalid 2100) = false := by decide
theorem test_illFormed_riseZeroBit : Instr.wellFormed (.riseZeroBit 69) = false ∧ Instr.wellFormed (.riseZeroBit 131) = false := by decide
theorem test_illFormed_riseOneBit : Instr.wellFormed (.riseOneBit 169) = false ∧ Instr.wellFormed (.riseOneBit 231) = false := by decide
theorem test_illFormed_riseInvalid : Instr.wellFormed (.riseInvalid 130) = false ∧ Instr.wellFormed (.riseInvalid 170) = false := by decide

/-! ## Decoding: words written out from the encodings of the table and of 30_encoding.md -/

/-- R62's table, row by row, and R63's two codes. -/
theorem test_decode_event3 :
    decode ⟨.event3, 0b000⟩ = .ok .noEvent ∧ decode ⟨.event3, 0b001⟩ = .ok .secondMark ∧
    decode ⟨.event3, 0b010⟩ = .ok .zeroBit ∧ decode ⟨.event3, 0b011⟩ = .ok .oneBit ∧
    decode ⟨.event3, 0b100⟩ = .ok .minuteMark ∧ decode ⟨.event3, 0b101⟩ = .ok .invalid ∧
    decode ⟨.event3, 0b110⟩ = .ok .reservedEvent6 ∧ decode ⟨.event3, 0b111⟩ = .ok .reservedEvent7 := by decide

/-- R61's codes, `ts_in` above them: 0x1234 = 0001 0010 0011 0100. -/
theorem test_decode_edge2 :
    decode ⟨.edge2, 0b000100100011010000⟩ = .ok (.holdLow 0x1234) ∧
    decode ⟨.edge2, 0b000100100011010001⟩ = .ok (.rise 0x1234) ∧
    decode ⟨.edge2, 0b000100100011010010⟩ = .ok (.fall 0x1234) ∧
    decode ⟨.edge2, 0b111111111111111111⟩ = .ok (.holdHigh 0xFFFF) := by decide

/-- R67's rows for a falling edge: 900 = 0x384, 2100 = 0x834, 65535. -/
theorem test_decode_fall_delta :
    decode ⟨.edge2Delta, 0b000000111000010010⟩ = .ok (.fallSecondMark 900) ∧
    decode ⟨.edge2Delta, 0b000010000011010010⟩ = .ok (.fallMinuteMark 2100) ∧
    decode ⟨.edge2Delta, 0b111111111111111110⟩ = .ok (.fallInvalid 65535) := by decide

/-- R67's rows for a rising edge: 130 = 0x82, 170 = 0xAA, 150 = 0x96. -/
theorem test_decode_rise_delta :
    decode ⟨.edge2Delta, 0b000000001000001001⟩ = .ok (.riseZeroBit 130) ∧
    decode ⟨.edge2Delta, 0b000000001010101001⟩ = .ok (.riseOneBit 170) ∧
    decode ⟨.edge2Delta, 0b000000001001011001⟩ = .ok (.riseInvalid 150) := by decide

/-- The ones of fA by slot, from its character string. -/
def wordA : Nat := 2 ^ 18 + 2 ^ 20 + 2 ^ 21 + 2 ^ 22 + 2 ^ 23 + 2 ^ 25 + 2 ^ 29 + 2 ^ 30 + 2 ^ 36 + 2 ^ 42 + 2 ^ 44 + 2 ^ 45 + 2 ^ 46 +
  2 ^ 52 + 2 ^ 55 + 2 ^ 58

theorem test_decode_frame : decode ⟨.frame59 .complete, wordA⟩ = .ok (.frame fA) := by decide
theorem test_decode_parity : decode ⟨.frame59 .parityMinute, 2 ^ 28⟩ = .ok (.parityMinute (zeros.set 28 true)) ∧
    decode ⟨.frame59 .parityHour, 2 ^ 35⟩ = .ok (.parityHour (zeros.set 35 true)) ∧
    decode ⟨.frame59 .parityDate, 2 ^ 58⟩ = .ok (.parityDate (zeros.set 58 true)) := by decide
theorem test_decode_field : decode ⟨.frame59 .fieldMinute, 2 ^ 21⟩ = .ok (.fieldMinute (zeros.set 21 true)) ∧
    decode ⟨.frame59 .fieldHour, 2 ^ 29⟩ = .ok (.fieldHour (zeros.set 29 true)) ∧
    decode ⟨.frame59 .fieldDay, 2 ^ 36⟩ = .ok (.fieldDay (zeros.set 36 true)) ∧
    decode ⟨.frame59 .fieldWeekday, 2 ^ 42⟩ = .ok (.fieldWeekday (zeros.set 42 true)) ∧
    decode ⟨.frame59 .fieldMonth, 2 ^ 45⟩ = .ok (.fieldMonth (zeros.set 45 true)) ∧
    decode ⟨.frame59 .fieldYear, 2 ^ 50⟩ = .ok (.fieldYear (zeros.set 50 true)) := by decide

/-- Bits above a format's width, and a HOLD code with a `delta`, are refused by name. -/
theorem test_decode_rejects :
    decode ⟨.event3, 8⟩ = .error .strayBits ∧ decode ⟨.edge2, 2 ^ 18⟩ = .error .strayBits ∧
    decode ⟨.edge2Delta, 2 ^ 18 + 2⟩ = .error .strayBits ∧ decode ⟨.frame59 .complete, 2 ^ 59⟩ = .error .strayBits ∧
    decode ⟨.edge2Delta, 0b00⟩ = .error .noDeltaOnHold ∧ decode ⟨.edge2Delta, 0b11⟩ = .error .noDeltaOnHold := by decide

/-! ## The events (95_test_vectors.md section 3; R178's table) -/

theorem test_noEvent : nextOf (exec .noEvent (st 17 false)) = some (st 17 false) := by decide
theorem test_secondMark_57 : nextOf (exec .secondMark (st 57 true)) = some (st 58 true) := by decide
theorem test_secondMark_58 : nextOf (exec .secondMark (st 58 false)) = some (st 0 true) := by decide
theorem test_zeroBit : nextOf (exec .zeroBit (st 58 true)) = some { st 58 true with frame := flipA 58 } := by decide
theorem test_oneBit : nextOf (exec .oneBit (st 0 true)) = some { st 0 true with frame := flipA 0 } := by decide
theorem test_minuteMark_premature : nextOf (exec .minuteMark (st 57 false)) = some (st 0 true) := by decide
theorem test_minuteMark_commit : nextOf (exec .minuteMark (st 58 true)) = some { st 0 false with decoded := timeA } := by decide
theorem test_invalid : nextOf (exec .invalid (st 17 false)) = some (st 17 true) := by decide
theorem test_reserved6 : refusalOf (exec .reservedEvent6 State.reset) = some (.reservedEventCode 6) := by decide
theorem test_reserved7 : refusalOf (exec .reservedEvent7 State.reset) = some (.reservedEventCode 7) := by decide

/-! ## The sampler, one whole tick by one step (95_test_vectors.md section 2) -/

/-- V-S3, last row: the timestamp of a HOLD tick is not looked at. -/
theorem test_holdHigh : nextOf (step (tickFrom (st 5 false) true 4000)) = some (st 5 false) := by decide
/-- V-R2. -/
theorem test_holdLow : nextOf (step (tickFrom State.reset false 12345)) = some State.reset := by decide
/-- V-S1 rows 3 and 12. -/
theorem test_fall_900 : nextOf (step (tickFrom (st 5 false) false 10900)) =
    some { st 6 false with lastLevel := false, tRef := 10900 } := by decide
theorem test_fall_2101 : nextOf (step (tickFrom (st 5 false) false 12101)) =
    some { st 5 true with lastLevel := false, tRef := 12101 } := by decide
/-- V-S4: one wrap between edges, 464 - 65000 = 1000; and a rising edge, 64 - 65500 = 100. -/
theorem test_fall_wrap : eventOut (tickFrom { st 5 false with tRef := 65000 } false 464) = some 1 := by decide
theorem test_rise_wrap : eventOut (tickFrom { st 5 false with lastLevel := false, tRef := 65500 } true 64) = some 2 := by decide
/-- V-S2 rows 11 and 12. -/
theorem test_rise_230 : nextOf (step (tickFrom { st 0 false with lastLevel := false } true 10230)) =
    some { st 0 false with frame := flipA 0 } := by decide
theorem test_rise_231 : nextOf (step (tickFrom { st 0 false with lastLevel := false } true 10231)) = some (st 0 true) := by decide
theorem test_fallSecondMark : nextOf (exec (.fallSecondMark 1100) (st 58 false)) =
    some { st 0 true with lastLevel := false, tRef := 11100 } := by decide
theorem test_fallMinuteMark : nextOf (exec (.fallMinuteMark 1900) (st 58 true)) =
    some { st 0 false with lastLevel := false, tRef := 11900, decoded := timeA } := by decide
theorem test_fallInvalid : nextOf (exec (.fallInvalid 1500) (st 58 false)) =
    some { st 58 true with lastLevel := false, tRef := 11500 } := by decide
theorem test_riseZeroBit : nextOf (exec (.riseZeroBit 70) { st 58 false with lastLevel := false }) =
    some { st 58 false with frame := flipA 58 } := by decide
theorem test_riseOneBit : nextOf (exec (.riseOneBit 170) { st 19 false with lastLevel := false }) =
    some { st 19 false with frame := flipA 19 } := by decide
theorem test_riseInvalid : nextOf (exec (.riseInvalid 150) { st 19 false with lastLevel := false }) = some (st 19 true) := by decide

/-! ## Frame completion (95_test_vectors.md sections 4 and 5) -/

theorem test_frame_commit : nextOf (exec (.frame fC) (st 58 true)) = some { st 0 false with decoded := timeC } := by decide
/-- V-Y2: fA with slots 23 and 31 flipped reports the first group. -/
theorem test_frame_firstGroup : outcomeOf (.frame ((flipA 23).set 31 true)) (st 58 true) = some .parityErrorMinute := by decide
theorem test_parityMinute : outcomeOf (.parityMinute (flipA 28)) (st 58 true) = some .parityErrorMinute ∧
    outcomeOf (.parityMinute (flipA 29)) (st 58 true) = some .okNone := by decide
theorem test_parityHour : outcomeOf (.parityHour (flipA 35)) (st 58 true) = some .parityErrorHour ∧
    outcomeOf (.parityHour (flipA 36)) (st 58 true) = some .okNone := by decide
theorem test_parityDate : outcomeOf (.parityDate (flipA 58)) (st 58 true) = some .parityErrorDate ∧
    outcomeOf (.parityDate (flipA 35)) (st 58 true) = some .okNone := by decide
/-- V-D5, the bounds of each field. -/
theorem test_fieldMinute : outcomeOf (.fieldMinute fM60) (st 58 true) = some .rangeErrorMinute ∧
    outcomeOf (.fieldMinute fC) (st 58 true) = some .okNone := by decide
theorem test_fieldHour : outcomeOf (.fieldHour fH24) (st 58 true) = some .rangeErrorHour ∧
    outcomeOf (.fieldHour fC) (st 58 true) = some .okNone := by decide
theorem test_fieldDay : outcomeOf (.fieldDay (withDate [0, 1, 0, 0, 1, 1])) (st 58 true) = some .rangeErrorDay ∧
    outcomeOf (.fieldDay zeros) (st 58 true) = some .rangeErrorDay ∧ outcomeOf (.fieldDay fC) (st 58 true) = some .okNone := by decide
theorem test_fieldWeekday : outcomeOf (.fieldWeekday zeros) (st 58 true) = some .rangeErrorWeekday ∧
    outcomeOf (.fieldWeekday (flipA 43)) (st 58 true) = some .okNone := by decide
theorem test_fieldMonth : outcomeOf (.fieldMonth (withDate [1, 0, 0, 0, 0, 0, 1, 0, 1, 1, 1, 0, 0, 1])) (st 58 true) = some .rangeErrorMonth ∧
    outcomeOf (.fieldMonth zeros) (st 58 true) = some .rangeErrorMonth ∧ outcomeOf (.fieldMonth fC) (st 58 true) = some .okNone := by decide
theorem test_fieldYear : outcomeOf (.fieldYear (withDate [1, 0, 0, 0, 0, 0, 1, 0, 1, 1, 1, 0, 0, 0, 0, 1, 0, 1, 1, 0, 0, 1])) (st 58 true) =
      some .rangeErrorYear ∧ outcomeOf (.fieldYear fC) (st 58 true) = some .okNone := by decide
/-- V-D6: units 10 and tens 1 decode to minute 20 and are accepted (R72). -/
theorem test_frame_nonCanonical : nextOf (exec (.frame (frameOf (lowA ++ [0, 1, 0, 1, 1, 0, 0, 1] ++ [1, 1, 0, 0, 0, 0, 0] ++ dateA))) (st 58 true)) =
    some { st 0 false with decoded := { timeA with minute := 20 } } := by decide

/-! ## The projector (95_test_vectors.md section 6) -/

/-- V-P1, V-P2, V-P9, V-P7. -/
theorem test_project_source : project { timeA with minute := 0 } = { year := 2024, month := 2, day := 29, weekday := 4, hour := 21, minute := 0 } ∧
    project { year := 2025, month := 1, day := 1, weekday := 3, hour := 2, minute := 0 } =
      { year := 2024, month := 12, day := 31, weekday := 2, hour := 20, minute := 0 } := by decide
theorem test_project_edges : project { year := 2024, month := 1, day := 15, weekday := 1, hour := 0, minute := 0 } =
      { year := 2024, month := 1, day := 14, weekday := 7, hour := 18, minute := 0 } ∧
    project { year := 2000, month := 1, day := 1, weekday := 6, hour := 5, minute := 0 } =
      { year := 1999, month := 12, day := 31, weekday := 5, hour := 23, minute := 0 } ∧
    project { timeA with hour := 6, minute := 30 } = { timeA with hour := 0, minute := 30 } := by decide

/-! ## Reset (95_test_vectors.md section 8) and placed words -/

/-- V-R1. -/
theorem test_resetEdge : nextOf (step { st 58 false with stimulus := [.clock true true true 77] }) = some State.reset := by decide
/-- A placed event code is what the next step runs, as the first after reset. -/
theorem test_withFetchWord : nextOf (step (State.reset.withFetchWord 8 3)) = some { State.reset with frame := zeros.set 0 true } ∧
    nextOf (step (State.reset.withFetchWord 64 0)) = some State.reset := by decide

/-! ## Witnesses: a state and operands that meet each statement's hypotheses, each clause at a boundary -/

theorem passes_fA : Passes fA := (passes_iff fA).2 (by decide)
theorem spells_fA : Spells fA timeA := ⟨by decide, by decide, by decide, by decide, by decide, by decide⟩
/-- The largest time, so that every upper bound is met with equality. -/
theorem passes_fC : Passes fC := (passes_iff fC).2 (by decide)
theorem spells_fC : Spells fC timeC := ⟨by decide, by decide, by decide, by decide, by decide, by decide⟩
/-- One flip at the last slot, and a range error behind good parities. -/
theorem not_passes_flip : ¬ Passes (flipA 58) := fun h => absurd ((passes_iff _).1 h) (by decide)
theorem not_passes_range : ¬ Passes fH24 := fun h => absurd ((passes_iff _).1 h) (by decide)

/-- fA in the buffer of a state whose cursor is at the end, the flag raised. -/
def atEnd : State := st 58 true
/-- The same with a frame that does not pass. -/
def atEndBad : State := { st 58 false with frame := flipA 58 }

theorem witness_ResetEdgeOverridesTick : (⟨true, 5, fA, 58, false, timeA, [.clock true true false 7, .clock false true true 9]⟩ : State).stimulus =
    .clock true true false 7 :: [.clock false true true 9] := rfl
theorem witness_NoTickNoChange : ({ st 7 false with stimulus := [.clock false false false 3] } : State).stimulus = .clock false false false 3 :: [] ∧
    (st 7 false).stimulus = [] := by decide
theorem witness_SecondMark_advance : (58 : Cursor).val = (st 57 false).cursor.val + 1 ∧ (1 : Cursor).val = (st 0 false).cursor.val + 1 := by decide
theorem witness_SecondMark_overflow : (st 58 false).cursor.val = 58 := by decide
theorem witness_MinuteMark_premature : (st 57 false).cursor.val ≠ 58 ∧ (st 0 false).cursor.val ≠ 58 := by decide
theorem witness_MinuteMark_commit : atEnd.cursor.val = 58 ∧ Passes atEnd.frame ∧ Spells atEnd.frame timeA :=
  ⟨by decide, passes_fA, spells_fA⟩
theorem witness_MinuteMark_fail : atEndBad.cursor.val = 58 ∧ ¬ Passes atEndBad.frame := ⟨by decide, not_passes_flip⟩
theorem witness_Hold : (State.reset).lastLevel = false ∧ (st 3 false).lastLevel = true ∧
    (tickFrom (st 3 false) true 4000).stimulus = .clock false true (tickFrom (st 3 false) true 4000).lastLevel 4000 :: [] := by decide

/-- The gap, and with it the width, of a timestamp after `tRef = 10000`, as the statements compute it. -/
def gapOf (ts : Timestamp) : Nat := (ts.toNat + 65536 - (st 0 false).tRef.toNat) % 65536

theorem witness_Fall_secondMark : (900 ≤ gapOf 10900 ∧ gapOf 10900 ≤ 1100) ∧ (900 ≤ gapOf 11100 ∧ gapOf 11100 ≤ 1100) ∧
    (58 : Cursor).val = (st 57 false).cursor.val + 1 ∧ (st 58 false).cursor.val = 58 := by decide
theorem witness_Fall_premature : (1900 ≤ gapOf 11900 ∧ gapOf 11900 ≤ 2100) ∧ (1900 ≤ gapOf 12100 ∧ gapOf 12100 ≤ 2100) ∧
    (st 57 false).cursor.val ≠ 58 := by decide
theorem witness_Fall_commit : (1900 ≤ gapOf 12100 ∧ gapOf 12100 ≤ 2100) ∧ atEnd.cursor.val = 58 ∧ Passes atEnd.frame ∧ Spells atEnd.frame timeA :=
  ⟨by decide, by decide, passes_fA, spells_fA⟩
theorem witness_Fall_fail : (1900 ≤ gapOf 11900 ∧ gapOf 11900 ≤ 2100) ∧ atEndBad.cursor.val = 58 ∧ ¬ Passes atEndBad.frame :=
  ⟨by decide, by decide, not_passes_flip⟩
theorem witness_Fall_invalid : [gapOf 10899, gapOf 11101, gapOf 11899, gapOf 12101].all
    (fun g => decide (¬(900 ≤ g ∧ g ≤ 1100)) && decide (¬(1900 ≤ g ∧ g ≤ 2100))) = true := by decide
theorem witness_Rise_zero : (70 ≤ gapOf 10070 ∧ gapOf 10070 ≤ 130) ∧ (70 ≤ gapOf 10130 ∧ gapOf 10130 ≤ 130) := by decide
theorem witness_Rise_one : (170 ≤ gapOf 10170 ∧ gapOf 10170 ≤ 230) ∧ (170 ≤ gapOf 10230 ∧ gapOf 10230 ≤ 230) := by decide
theorem witness_Rise_invalid : [gapOf 10069, gapOf 10131, gapOf 10169, gapOf 10231].all
    (fun g => decide (¬(70 ≤ g ∧ g ≤ 130)) && decide (¬(170 ≤ g ∧ g ≤ 230))) = true := by decide
/-- Also for TickIsClassifyThenProcess, LiveStrobeAtEveryEdge, CommitStrobeAtATick. -/
theorem witness_SamplerRegisters : (tickFrom (st 3 false) false 12000).stimulus = .clock false true false 12000 :: [] := rfl
theorem witness_TickIsClassify_noTick : ({ st 7 false with stimulus := [.clock false false true 3] } : State).stimulus =
    .clock false false true 3 :: [] := rfl
theorem witness_ClassifiedEdgesAreSubcases : Instr.wellFormed (.fallSecondMark 900) = true ∧ Instr.wellFormed (.fallMinuteMark 2100) = true ∧
    Instr.wellFormed (.fallInvalid 899) = true ∧ Instr.wellFormed (.riseZeroBit 130) = true ∧
    Instr.wellFormed (.riseOneBit 170) = true ∧ Instr.wellFormed (.riseInvalid 231) = true := by decide

/-- Two edges, falling then rising, with a HOLD tick and an edge without a tick between them. -/
def quietLow : List Stimulus := [.clock false true false 11010, .clock false false true 11020]
def twoEdges : State := { st 5 false with stimulus := .clock false true false 11000 :: (quietLow ++ [.clock false true true 11100]) }
def afterFall : State := { st 6 false with lastLevel := false, tRef := 11000, stimulus := [.clock false true true 11100] }
theorem witness_EdgesAlternate_fall : twoEdges.stimulus = .clock false true false 11000 :: (quietLow ++ .clock false true true 11100 :: []) ∧
    (∀ x ∈ quietLow, x.quietAt false = true) ∧ Sys2Proof.core.run (quietLow.length + 1) twoEdges = .next afterFall ∧
    nextEvent twoEdges = some .secondMark ∧ nextEvent afterFall = some .zeroBit ∧
    Event.secondMark ≠ .noEvent ∧ Event.zeroBit ≠ .noEvent :=
  ⟨rfl, by decide, rfl, by decide, by decide, by decide, by decide⟩
/-- Rising then falling, with nothing between. -/
def riseThenFall : State := { st 5 false with lastLevel := false, stimulus := [.clock false true true 10300, .clock false true false 12100] }
def afterRise : State := { st 5 true with stimulus := [.clock false true false 12100] }
theorem witness_EdgesAlternate_rise : riseThenFall.stimulus = .clock false true true 10300 :: ([] ++ .clock false true false 12100 :: []) ∧
    Sys2Proof.core.run 1 riseThenFall = .next afterRise ∧ nextEvent riseThenFall = some .invalid ∧ nextEvent afterRise = some .minuteMark ∧
    Event.invalid ≠ .noEvent ∧ Event.minuteMark ≠ .noEvent :=
  ⟨rfl, rfl, by decide, by decide, by decide, by decide⟩

/-- Also for PassingFrameSpellsATime and RecoversAtTheSecondMinuteMark. -/
theorem witness_Completion_commit : Passes fC ∧ Spells fC timeC := ⟨passes_fC, spells_fC⟩
theorem witness_Completion_fail : ¬ Passes fH24 := not_passes_range
theorem witness_SingleFlip : ParityGood fA ∧ [(21 : Fin 59), 28, 29, 35, 36, 58].all (fun i => decide (21 ≤ i.val)) = true :=
  ⟨passes_fA.parity, by decide⟩
theorem witness_LowSlots : flipA 20 ≠ fA ∧ ∀ i : Fin 59, 21 ≤ i.val → (flipA 20)[i] = fA[i] := by decide
theorem witness_Canonical : inRange timeC = true ∧ inRange State.reset.decoded = true := by decide

/-- A tick that commits. -/
def commitTick : State := tickFrom atEnd false 12000
theorem witness_CommitStrobe : commitStrobe commitTick = some true := by decide
theorem witness_StepKeeps : commitTick.Inv ∧ ∃ t, step commitTick = .next t := ⟨by unfold State.Inv; decide, _, rfl⟩
theorem witness_Outcome_okNone : outcomeOf .noEvent atEnd = some .okNone ∧ exec .noEvent atEnd = .next atEnd := ⟨by decide, rfl⟩
theorem witness_Outcome_commit : outcomeOf .minuteMark atEnd = some .commit ∧ ∃ t, exec .minuteMark atEnd = .next t := ⟨by decide, _, rfl⟩
theorem witness_Outcome_invalid : outcomeOf .invalid atEnd = some .invalidClassification ∧ ∃ t, exec .invalid atEnd = .next t := ⟨by decide, _, rfl⟩
theorem witness_Outcome_error : outcomeOf .minuteMark atEndBad = some .parityErrorDate ∧ ∃ t, exec .minuteMark atEndBad = .next t := ⟨by decide, _, rfl⟩
theorem witness_OnlyACommitClears : ∃ t, step commitTick = .next t ∧ commitTick.healthFlag = true ∧ t.healthFlag = false :=
  ⟨_, rfl, by decide, by decide⟩
/-- Also for PortsFollowTheRegisters. -/
theorem witness_OnlyACommitWrites : ∃ t, step commitTick = .next t ∧ t.decoded ≠ commitTick.decoded ∧
    (statePorts t).lt ≠ (statePorts commitTick).lt := ⟨_, rfl, by decide, by decide⟩
theorem witness_ResetWritesDecoded : ∃ t, step { st 3 false with stimulus := [.clock true false false 0] } = .next t ∧
    t.decoded ≠ (st 3 false).decoded := ⟨_, rfl, by decide⟩
theorem witness_MinuteMarkRewinds : nextEvent commitTick = some .minuteMark ∧ nextEvent (tickFrom (st 57 false) false 11900) = some .minuteMark := by decide
theorem witness_CursorMoves_second : ∃ t, step (tickFrom (st 57 false) false 11000) = .next t ∧ t.cursor ≠ (st 57 false).cursor := ⟨_, rfl, by decide⟩
theorem witness_CursorMoves_overflow : ∃ t, step (tickFrom (st 58 false) false 11000) = .next t ∧ t.cursor ≠ (st 58 false).cursor := ⟨_, rfl, by decide⟩
theorem witness_CursorMoves_minute : ∃ t, step commitTick = .next t ∧ t.cursor ≠ commitTick.cursor := ⟨_, rfl, by decide⟩
theorem witness_OneSlot_zero : ∃ t, step (tickFrom { st 58 false with lastLevel := false } true 10100) = .next t ∧ t.frame ≠ fA ∧
    fetch (tickFrom { st 58 false with lastLevel := false } true 10100) ≠ .reset := ⟨_, rfl, by decide, by decide⟩
theorem witness_OneSlot_one : ∃ t, step (tickFrom { st 0 false with lastLevel := false } true 10200) = .next t ∧ t.frame ≠ fA ∧
    fetch (tickFrom { st 0 false with lastLevel := false } true 10200) ≠ .reset := ⟨_, rfl, by decide, by decide⟩
theorem witness_LaterStages : ∃ t, exec .oneBit (st 0 false) = .next t ∧ (encode .oneBit).fmt ≠ .edge2 ∧ (encode .oneBit).fmt ≠ .edge2Delta :=
  ⟨_, rfl, by decide, by decide⟩
theorem witness_ClockEdges : twoEdges.stimulus ≠ [] ∧ ∀ x ∈ twoEdges.stimulus, x.isClock = true := by decide
theorem witness_Overflow : (58 : Cursor).val = (st 30 false).cursor.val + 28 ∧ (30 : Cursor).val = (st 30 false).cursor.val + 0 := by decide
theorem witness_Feeding : (st 0 true).cursor = 0 := by decide
theorem witness_InvalidDoesNotPoison : atEnd.cursor.val = 58 ∧ Passes atEnd.frame ∧ Spells atEnd.frame timeA := witness_MinuteMark_commit

/-- The branches of the projection at their bounds: hour 6 and 5; day 1 and 2; months 1, 3 and another. Also for
BorrowIsTheSign, ProjectionKeepsMinuteMonthYear and ProjectionRanges. -/
theorem witness_Projection : inRange { timeA with hour := 6 } = true ∧ inRange { timeA with hour := 5, day := 2 } = true ∧
    inRange { timeA with hour := 5, month := 1 } = true ∧ inRange { timeA with hour := 0 } = true ∧
    (5 : BitVec 5).toNat < 6 ∧ 6 ≤ (6 : BitVec 5).toNat ∧ timeA.day.toNat = 1 ∧ timeA.month.toNat = 3 := by decide
theorem witness_ProjectionOtherMonths : [2, 4, 5, 6, 7, 8, 9, 10, 11, 12].all (fun m => inRange { timeA with month := m } &&
    decide (m.toNat ≠ 1 ∧ m.toNat ≠ 3) && decide (timeA.hour.toNat < 6 ∧ timeA.day.toNat = 1)) = true := by decide
theorem witness_LeapYears : 2000 ≤ (2000 : BitVec 12).toNat ∧ (2099 : BitVec 12).toNat ≤ 2099 := by decide
theorem witness_SixHoursBack : inRange timeA = true ∧ onCalendar timeA ∧ inRange timeC = true ∧ onCalendar timeC := by
  unfold onCalendar; decide

theorem witness_StepRuns : fetch commitTick = .word ⟨.edge2, 12000 * 4 + 2⟩ ∧ decode ⟨.edge2, 12000 * 4 + 2⟩ = .ok (.fall 12000) := by decide
theorem witness_DecodeEncode : Instr.wellFormed (.fallSecondMark 1100) = true ∧ Instr.wellFormed (.frame fA) = true := by decide
theorem witness_EncodeDecode : decode ⟨.edge2Delta, 65535 * 4 + 2⟩ = .ok (.fallInvalid 65535) := by decide
theorem witness_PlacedWord : decodeTableWord 8 4 = some .minuteMark ∧ decodeTableWord 2 2 = some (.fall 0) ∧
    decodeTableWord 18 (900 * 4 + 2) = some (.fallSecondMark 900) ∧ decodeTableWord 64 0 = some (.frame zeros) := by decide

end Sys2Proof.Tests
end

section
/-! SUPPORT. Proofs of the family 00_scope: one step by what it fetches, the sampler's registers behind the sampler, and the one operation that writes `decoded`. -/

namespace Sys2Proof.Machine

/-! ## One step by what it fetches -/

/-- A step runs the operation it decodes, with its input taken off the list. -/
theorem step_of_decoded {s : State} {w : OpWord} {i : Instr} (hw : fetch s = .word w) (hd : decode w = .ok i) :
    step s = exec i (consume s) := by
  simp [step, hw, hd]

/-- With nothing presented a step changes nothing (R203). -/
theorem step_of_nil {s : State} (h : s.stimulus = []) : step s = .next s := by
  have hidle : fetch s = .idle := by simp [fetch, h]
  have hsame : consume s = s := State.eq_of_fields rfl rfl rfl rfl rfl rfl (by simp [h])
  simp [step, hidle, hsame]

/-- A clock edge without a tick keeps every level (R10). -/
theorem step_of_noTick {s : State} {level : Bool} {ts : Timestamp} {rest : List Stimulus}
    (h : s.stimulus = .clock false false level ts :: rest) : step s = .next { s with stimulus := rest } :=
  step_of_quiet s _ rest h rfl

theorem consume_of_cons {s : State} {x : Stimulus} {rest : List Stimulus} (h : s.stimulus = x :: rest) :
    consume s = { s with stimulus := rest } := by
  simp [consume, h]

/-! ## The sampler's registers -/

/-- Outside the two edge formats an operation with an event is `Process` of that event on the registers as they
are: nothing is sampled. -/
theorem exec_of_event_unsampled {i : Instr} {s : State} {ev : Event} (h2 : (encode i).fmt ≠ .edge2)
    (hd : (encode i).fmt ≠ .edge2Delta) (hev : eventOf i s = some ev) : exec i s = .next (process ev s).2 := by
  cases i with
  | noEvent | secondMark | zeroBit | oneBit | minuteMark | invalid => cases hev; rfl
  | reservedEvent6 | reservedEvent7 => cases hev
  | holdLow | rise | fall | holdHigh => exact absurd rfl h2
  | fallSecondMark | fallMinuteMark | fallInvalid | riseZeroBit | riseOneBit | riseInvalid => exact absurd rfl hd
  | frame | parityMinute | parityHour | parityDate => cases hev
  | fieldMinute | fieldHour | fieldDay | fieldWeekday | fieldMonth | fieldYear => cases hev

/-! ## The register `decoded` -/

/-- `Process` writes `decoded` only where its label is the commit (R28, R138). -/
theorem process_decoded (ev : Event) (s : State) :
    (process ev s).1 = .commit ∨ (process ev s).2.decoded = s.decoded := by
  obtain ⟨_, h⟩ | ⟨_, c, _, h⟩ | ⟨_, _, h⟩ | ⟨_, h⟩ | ⟨_, h⟩ | ⟨_, e, _, _, h⟩ | ⟨_, _, _, h⟩ | ⟨_, h⟩ :=
    process_cases ev s <;> rw [h]
  exacts [.inr rfl, .inr rfl, .inr rfl, .inr rfl, .inr rfl, .inr rfl, .inl rfl, .inr rfl]

/-- An operation writes `decoded` only where its label is the commit (R28, R138). -/
theorem exec_decoded {i : Instr} {s t : State} (h : exec i s = .next t) :
    outcomeOf i s = some .commit ∨ t.decoded = s.decoded := by
  obtain ⟨c, _, hx⟩ | ⟨ev, s1, _, hs, ho, hx⟩ | ⟨_, _, hx⟩ | ⟨_, e, _, _, hx⟩ | ⟨f, _, _, ho, _⟩ := exec_cases i s
  · cases hx.symm.trans h
  · cases hx.symm.trans h
    rw [ho, ← hs.decoded]
    exact (process_decoded ev s1).imp_left (congrArg some)
  · cases hx.symm.trans h; exact .inr rfl
  · cases hx.symm.trans h; exact .inr rfl
  · exact .inl ho

/-- A step writes `decoded` only at a commit or a reset edge (R28, R138, R190). -/
theorem step_decoded {s t : State} (h : step s = .next t) :
    (commitStrobe s = some true ∨ fetch s = .reset) ∨ t.decoded = s.decoded := by
  obtain ⟨_, hs⟩ | ⟨hf, _⟩ | ⟨w, i, hf, _, hn, hs⟩ | ⟨w, e, _, _, hs⟩ := step_cases s
  · cases hs.symm.trans h; exact .inr rfl
  · exact .inl (.inr hf)
  · refine (exec_decoded (hs.symm.trans h)).imp_left fun ho => .inl ?_
    rw [outcomeOf_consume] at ho
    simp [commitStrobe_eq s i w hf hn, ho]
  · cases hs.symm.trans h

/-! ## The obligations -/

/-- Settles O18: the edge row a tick decodes to is `Classify` and `Process`, and neither reads the inputs to come. -/
theorem tickIsClassifyThenProcess : Obligations.TickIsClassifyThenProcess := by
  intro s level ts rest
  refine ⟨fun h => ⟨?_, ?_⟩, step_of_noTick⟩
  · have hev := classify_fst level ts s { s with stimulus := rest } rfl rfl
    rw [step_eq_tick s level ts rest h, consume_of_cons h, tick, hev]
  · rw [eventOut, nextEvent_tick s level ts rest h, Option.map_some]

/-- Settles O39: behind the sampler an operation processes an event, passes, discards or commits, and none of
these writes a sampler register. -/
theorem laterStagesLeaveTheSampler : Obligations.LaterStagesLeaveTheSampler := by
  intro i s t h h2 hd
  obtain ⟨c, _, hx⟩ | ⟨ev, _, hev, _⟩ | ⟨_, _, hx⟩ | ⟨_, e, _, _, hx⟩ | ⟨f, _, _, _, hx⟩ := exec_cases i s
  · cases hx.symm.trans h
  · cases (exec_of_event_unsampled h2 hd hev).symm.trans h
    exact process_sampler ev s
  · cases hx.symm.trans h; exact ⟨rfl, rfl, rfl⟩
  · cases hx.symm.trans h; exact ⟨rfl, rfl, rfl⟩
  · cases hx.symm.trans h; exact ⟨rfl, rfl, rfl⟩

/-- Settles O52: `lt_*` is a function of `decoded`, which only a commit or a reset edge writes. -/
theorem portsFollowTheRegisters : Obligations.PortsFollowTheRegisters := by
  refine fun s t => ⟨rfl, rfl, rfl, fun h hne => ?_⟩
  refine (step_decoded h).resolve_right fun hdec => hne ?_
  exact congrArg project hdec

/-- Settles O3: without a tick a step at most takes its input off the list. -/
theorem noTickNoChange : Obligations.NoTickNoChange :=
  fun _ => ⟨fun _ _ _ => step_of_noTick, step_of_nil⟩

/-- Settles O56: the step is fetch, decode, execute, and `consume` takes the input. -/
theorem stepRunsTheDecodedOperation : Obligations.StepRunsTheDecodedOperation :=
  fun _ _ _ => step_of_decoded

end Sys2Proof.Machine
end

section
/-! SUPPORT. Proofs of the family 10_state: the reset values, the range of `decoded` as an invariant of every step, and the moves of the cursor. -/

namespace Sys2Proof.Machine

/-! ## The range of `decoded` -/

/-- The time of a passing frame is in range: no sum is cut by its register (R27, R141). -/
theorem Passes.decodedOf_inRange {f : Frame} (h : Passes f) : inRange (decodedOf f) = true :=
  Machine.decodedOf_inRange f ((passes_iff f).1 h)

/-- The invariant is about `decoded` alone. -/
theorem State.Inv.of_decoded_eq {s t : State} (h : s.Inv) (hd : t.decoded = s.decoded) : t.Inv :=
  (congrArg inRange hd).trans h

/-- A commit of a passing frame meets the invariant from any state. -/
theorem committed_inv {f : Frame} (s : State) (h : Passes f) : (committed (decodedOf f) s).Inv :=
  h.decodedOf_inRange

theorem reset_inv : State.reset.Inv := by
  unfold State.Inv
  decide

/-- `Process` writes `decoded` only from a passing frame. -/
theorem process_keeps_inv (ev : Event) {s : State} (hi : s.Inv) : (process ev s).2.Inv := by
  obtain ⟨_, h⟩ | ⟨_, c, _, h⟩ | ⟨_, _, h⟩ | ⟨_, h⟩ | ⟨_, h⟩ | ⟨_, e, _, _, h⟩ | ⟨_, _, hp, h⟩ | ⟨_, h⟩ :=
    process_cases ev s <;> rw [h]
  exacts [hi, hi.of_decoded_eq rfl, hi.of_decoded_eq rfl, hi.of_decoded_eq rfl, hi.of_decoded_eq rfl,
    hi.of_decoded_eq rfl, committed_inv s hp, hi.of_decoded_eq rfl]

/-- Every operation keeps `decoded` in range (R27). -/
theorem exec_keeps_inv {i : Instr} {s t : State} (hi : s.Inv) (h : exec i s = .next t) : t.Inv := by
  obtain ⟨c, _, hx⟩ | ⟨ev, s1, _, hs, _, hx⟩ | ⟨_, _, hx⟩ | ⟨_, e, _, _, hx⟩ | ⟨f, _, hp, _, hx⟩ := exec_cases i s
  · cases hx.symm.trans h
  · cases hx.symm.trans h; exact process_keeps_inv ev (hi.of_decoded_eq hs.decoded)
  · cases hx.symm.trans h; exact hi
  · cases hx.symm.trans h; exact hi.of_decoded_eq rfl
  · cases hx.symm.trans h; exact committed_inv s hp

/-! ## The cursor -/

/-- `Process` moves the cursor only on a mark: one slot on or from 58 to 0, and to 0 (R24, R102, R105). -/
theorem process_cursor (ev : Event) (s : State) :
    (process ev s).2.cursor = s.cursor ∨
    (ev = .secondMark ∧ ((process ev s).2.cursor.val = s.cursor.val + 1 ∨
      (s.cursor.val = 58 ∧ (process ev s).2.cursor = 0))) ∨
    (ev = .minuteMark ∧ (process ev s).2.cursor = 0) := by
  obtain ⟨_, h⟩ | ⟨hev, c, hc, h⟩ | ⟨hev, h58, h⟩ | ⟨_, h⟩ | ⟨_, h⟩ | ⟨hev, e, _, _, h⟩ | ⟨hev, _, _, h⟩ | ⟨_, h⟩ :=
    process_cases ev s <;> rw [h]
  · exact .inl rfl
  · exact .inr (.inl ⟨hev, .inl hc⟩)
  · exact .inr (.inl ⟨hev, .inr ⟨h58, rfl⟩⟩)
  · exact .inl rfl
  · exact .inl rfl
  · exact .inr (.inr ⟨hev, rfl⟩)
  · exact .inr (.inr ⟨hev, rfl⟩)
  · exact .inl rfl

/-- `Classify` writes the sampler's registers alone (R84). -/
@[simp] theorem classify_cursor (level : Bool) (ts : Timestamp) (s : State) :
    (classify level ts s).2.cursor = s.cursor := by
  unfold classify
  split_ifs <;> rfl

/-! ## The obligations -/

/-- Settles O31: a step is idle, a reset edge, or one decoded operation, and each keeps `decoded` in range. -/
theorem stepKeepsDecodedInRange : Obligations.StepKeepsDecodedInRange := by
  intro s t hi h
  have hc : (consume s).Inv := hi.of_decoded_eq rfl
  obtain ⟨_, hs⟩ | ⟨_, hs⟩ | ⟨w, i, _, _, _, hs⟩ | ⟨w, e, _, _, hs⟩ := step_cases s
  · cases hs.symm.trans h; exact hc
  · cases hs.symm.trans h; exact reset_inv.of_decoded_eq rfl
  · exact exec_keeps_inv hc (hs.symm.trans h)
  · cases hs.symm.trans h

/-- Settles O24: the time is the one the machine decodes. -/
theorem passingFrameSpellsATime : Obligations.PassingFrameSpellsATime :=
  fun f h => ⟨decodedOf f, spells_decodedOf f h, h.decodedOf_inRange⟩

/-- Settles O35: what `step_decoded` says of a step whose `decoded` differs. -/
theorem onlyACommitWritesDecoded : Obligations.OnlyACommitWritesDecoded :=
  fun _ _ h hne => (step_decoded h).resolve_right hne

/-- Settles O37: a tick is `Classify`, which leaves the cursor, and then `Process`; without a tick nothing moves. -/
theorem cursorMovesOnMarksOnly : Obligations.CursorMovesOnMarksOnly := by
  intro s t tk level ts rest hst h hne
  cases tk with
  | false =>
    cases (step_of_noTick hst).symm.trans h
    exact absurd rfl hne
  | true =>
    cases (step_eq_tick s level ts rest hst).symm.trans h
    rw [nextEvent_tick s level ts rest hst, ← classify_fst level ts s (consume s) rfl rfl]
    have hcur := process_cursor (classify level ts (consume s)).1 (classify level ts (consume s)).2
    rw [classify_cursor, consume_cursor] at hcur
    simp only [Option.some.injEq]
    exact hcur.resolve_left hne

/-- Settles O1: the registers by definition; the projection borrows a day across the year's start. -/
theorem resetValues : Obligations.ResetValues := by
  refine ⟨rfl, rfl, fun i => ?_, rfl, rfl, rfl, ?_⟩
  · exact Vector.getElem_replicate i.isLt
  · rw [project_eq _ reset_inv]
    decide

/-- Settles O32: the base case of the invariant O31 keeps. -/
theorem resetIsInRange : Obligations.ResetIsInRange := reset_inv

end Sys2Proof.Machine
end

section
/-! SUPPORT. Proof of the family 20_memory: the one store of the hardware, from `Process` through `exec` to a step. -/

namespace Sys2Proof.Machine

/-! ## The one store -/

/-- From `s` to `t`, with the event `ev` if there is one, the frame buffer is left alone, or the slot at the
cursor takes the bit of the event and the cursor stays (R42, R52, R103, R104). -/
def StoresAtMostItsBit (ev : Option Event) (s t : State) : Prop :=
  t.frame = s.frame ∨
    t.cursor = s.cursor ∧ (ev = some .zeroBit ∧ SlotWritten s t false ∨ ev = some .oneBit ∧ SlotWritten s t true)

/-- Only the buffer and the cursor before the store matter. -/
theorem StoresAtMostItsBit.congr_left {ev : Option Event} {s s1 t : State} (h : StoresAtMostItsBit ev s1 t)
    (hf : s1.frame = s.frame) (hc : s1.cursor = s.cursor) : StoresAtMostItsBit ev s t := by
  simpa [StoresAtMostItsBit, SlotWritten, hf, hc] using h

/-- `Process` stores on a bit event alone. -/
theorem process_stores (ev : Event) (s : State) : StoresAtMostItsBit (some ev) s (process ev s).2 := by
  obtain ⟨_, h⟩ | ⟨_, c, _, h⟩ | ⟨_, _, h⟩ | ⟨hev, h⟩ | ⟨hev, h⟩ | ⟨_, e, _, _, h⟩ | ⟨_, _, _, h⟩ | ⟨_, h⟩ :=
    process_cases ev s <;> rw [h]
  · exact .inl rfl
  · exact .inl rfl
  · exact .inl rfl
  · exact .inr ⟨rfl, .inl ⟨congrArg some hev, slotWritten_of_writeSlot s false _ rfl⟩⟩
  · exact .inr ⟨rfl, .inr ⟨congrArg some hev, slotWritten_of_writeSlot s true _ rfl⟩⟩
  · exact .inl rfl
  · exact .inl rfl
  · exact .inl rfl

/-- An operation stores through `Process` alone: the sampler and the units of completion write no slot. -/
theorem exec_stores {i : Instr} {s t : State} (h : exec i s = .next t) : StoresAtMostItsBit (eventOf i s) s t := by
  obtain ⟨c, _, hx⟩ | ⟨ev, s1, hev, hs, _, hx⟩ | ⟨_, _, hx⟩ | ⟨_, e, _, _, hx⟩ | ⟨f, _, _, _, hx⟩ := exec_cases i s
  · cases hx.symm.trans h
  · cases hx.symm.trans h
    rw [hev]
    exact (process_stores ev s1).congr_left hs.frame hs.cursor
  · cases hx.symm.trans h; exact .inl rfl
  · cases hx.symm.trans h; exact .inl rfl
  · cases hx.symm.trans h; exact .inl rfl

/-- A step that is no reset edge stores what its operation stores. -/
theorem step_stores {s t : State} (h : step s = .next t) (hr : fetch s ≠ .reset) :
    StoresAtMostItsBit (nextEvent s) s t := by
  obtain ⟨_, hs⟩ | ⟨hf, _⟩ | ⟨w, i, _, _, hn, hs⟩ | ⟨w, e, _, _, hs⟩ := step_cases s
  · cases hs.symm.trans h; exact .inl rfl
  · exact absurd hf hr
  · rw [nextEvent_eq s i hn, ← eventOf_consume]
    exact (exec_stores (hs.symm.trans h)).congr_left rfl rfl
  · cases hs.symm.trans h

/-! ## The obligation -/

/-- Settles O38: what `step_stores` says of the other slots, and of a step whose frame differs. -/
theorem atMostOneSlotIsWritten : Obligations.AtMostOneSlotIsWritten := by
  intro s t h hr
  obtain hf | ⟨hc, ⟨hev, hbit, hrest⟩ | ⟨hev, hbit, hrest⟩⟩ := step_stores h hr
  · exact ⟨fun j _ => by rw [hf], fun hne => absurd hf hne⟩
  · exact ⟨hrest, fun _ => ⟨hc, .inl ⟨hev, hbit⟩⟩⟩
  · exact ⟨hrest, fun _ => ⟨hc, .inr ⟨hev, hbit⟩⟩⟩

end Sys2Proof.Machine
end

section
/-! SUPPORT. Proofs of the family 30_encoding: the rows as words and back, placing a word, edges by their delta, the difference of timestamps, and frames that agree from slot 21 on. -/

namespace Sys2Proof.Machine

/-! ## The windows of the EDGE2+DELTA rows (R65 to R67) -/

@[simp] theorem wellFormed_fallSecondMark (d : Timestamp) :
    (Instr.fallSecondMark d).wellFormed = true ↔ classifyFall d = .secondMark := by
  simp [Instr.wellFormed, classifyFall_eq_secondMark]

@[simp] theorem wellFormed_fallMinuteMark (d : Timestamp) :
    (Instr.fallMinuteMark d).wellFormed = true ↔ classifyFall d = .minuteMark := by
  simp [Instr.wellFormed, classifyFall_eq_minuteMark]

@[simp] theorem wellFormed_fallInvalid (d : Timestamp) :
    (Instr.fallInvalid d).wellFormed = true ↔ classifyFall d = .invalid := by
  simp only [Instr.wellFormed, Bool.and_eq_true, Bool.not_eq_true', decide_eq_false_iff_not, classifyFall_eq_invalid]

@[simp] theorem wellFormed_riseZeroBit (d : Timestamp) :
    (Instr.riseZeroBit d).wellFormed = true ↔ classifyRise d = .zeroBit := by
  simp [Instr.wellFormed, classifyRise_eq_zeroBit]

@[simp] theorem wellFormed_riseOneBit (d : Timestamp) :
    (Instr.riseOneBit d).wellFormed = true ↔ classifyRise d = .oneBit := by
  simp [Instr.wellFormed, classifyRise_eq_oneBit]

@[simp] theorem wellFormed_riseInvalid (d : Timestamp) :
    (Instr.riseInvalid d).wellFormed = true ↔ classifyRise d = .invalid := by
  simp only [Instr.wellFormed, Bool.and_eq_true, Bool.not_eq_true', decide_eq_false_iff_not, classifyRise_eq_invalid]

/-- The row of a falling edge is the one its event selects (R67). -/
theorem fallRow_cases (d : Timestamp) :
    (classifyFall d = .secondMark ∧ fallRow d = .fallSecondMark d) ∨
    (classifyFall d = .minuteMark ∧ fallRow d = .fallMinuteMark d) ∨
    (classifyFall d = .invalid ∧ fallRow d = .fallInvalid d) := by
  obtain h | h | h := classifyFall_cases d
  · exact .inl ⟨h, by simp [fallRow, h]⟩
  · exact .inr (.inl ⟨h, by simp [fallRow, h]⟩)
  · exact .inr (.inr ⟨h, by simp [fallRow, h]⟩)

/-- The row of a rising edge, likewise (R67). -/
theorem riseRow_cases (d : Timestamp) :
    (classifyRise d = .zeroBit ∧ riseRow d = .riseZeroBit d) ∨
    (classifyRise d = .oneBit ∧ riseRow d = .riseOneBit d) ∨
    (classifyRise d = .invalid ∧ riseRow d = .riseInvalid d) := by
  obtain h | h | h := classifyRise_cases d
  · exact .inl ⟨h, by simp [riseRow, h]⟩
  · exact .inr (.inl ⟨h, by simp [riseRow, h]⟩)
  · exact .inr (.inr ⟨h, by simp [riseRow, h]⟩)

theorem encode_fallRow (d : Timestamp) : encode (fallRow d) = edgeWord .edge2Delta 2 d := by
  obtain ⟨_, h⟩ | ⟨_, h⟩ | ⟨_, h⟩ := fallRow_cases d <;> rw [h] <;> rfl

theorem encode_riseRow (d : Timestamp) : encode (riseRow d) = edgeWord .edge2Delta 1 d := by
  obtain ⟨_, h⟩ | ⟨_, h⟩ | ⟨_, h⟩ := riseRow_cases d <;> rw [h] <;> rfl

theorem wellFormed_fallRow (d : Timestamp) : (fallRow d).wellFormed = true := by
  obtain ⟨hc, h⟩ | ⟨hc, h⟩ | ⟨hc, h⟩ := fallRow_cases d <;> rw [h] <;> simpa using hc

theorem wellFormed_riseRow (d : Timestamp) : (riseRow d).wellFormed = true := by
  obtain ⟨hc, h⟩ | ⟨hc, h⟩ | ⟨hc, h⟩ := riseRow_cases d <;> rw [h] <;> simpa using hc

/-! ## From a row to its word and back -/

/-- A falling edge's word decodes to the row its delta selects. -/
theorem decode_fallEdge (d : Timestamp) : decode (edgeWord .edge2Delta 2 d) = .ok (fallRow d) :=
  decodeEdge2Delta_edge 2 (by decide) d

theorem decode_riseEdge (d : Timestamp) : decode (edgeWord .edge2Delta 1 d) = .ok (riseRow d) :=
  decodeEdge2Delta_edge 1 (by decide) d

/-- A unit's word decodes to its operation on the whole frame. -/
theorem decode_frameWord (u : FrameUnit) (f : Frame) : decode ⟨.frame59 u, f.toBits⟩ = .ok (u.instr f) := by
  have hlt := toBits_lt f
  simp only [decode, decodeFrame59, ofBits_toBits]
  exact if_neg (by omega)

theorem encode_frameInstr (u : FrameUnit) (f : Frame) : encode (u.instr f) = ⟨.frame59 u, f.toBits⟩ := by
  cases u <;> rfl

theorem wellFormed_frameInstr (u : FrameUnit) (f : Frame) : (u.instr f).wellFormed = true := by
  cases u <;> rfl

/-! ## From a word to its row and back -/

/-- An 18-bit word is its edge code with its operand above it (R61). -/
theorem edgeWord_of_lt (fmt : Format) {b : Nat} (h : b < 2 ^ 18) :
    edgeWord fmt (b % 4) (edgeOperand b) = ⟨fmt, b⟩ := by
  have hb : b % 4 + 4 * (edgeOperand b).toNat = b := by
    simp only [edgeOperand, BitVec.toNat_ofNat]
    omega
  rw [edgeWord, hb]

/-- What an event word decodes to. -/
theorem decodeEvent3_ok {b : Nat} {i : Instr} (h : decodeEvent3 b = .ok i) :
    b < 2 ^ 3 ∧ encode i = ⟨.event3, b⟩ ∧ i.wellFormed = true := by
  unfold decodeEvent3 at h
  split at h <;> cases h <;> exact ⟨by decide, rfl, rfl⟩

/-- What an edge word with its timestamp decodes to. -/
theorem decodeEdge2_ok {b : Nat} {i : Instr} (h : decodeEdge2 b = .ok i) :
    b < 2 ^ 18 ∧ encode i = ⟨.edge2, b⟩ ∧ i.wellFormed = true := by
  unfold decodeEdge2 at h
  split at h
  · cases h
  next hlt =>
    have hlt : b < 2 ^ 18 := by omega
    rw [← edgeWord_of_lt .edge2 hlt]
    split at h <;> cases h
    next hc => exact ⟨hlt, by rw [hc]; rfl, rfl⟩
    next hc => exact ⟨hlt, by rw [hc]; rfl, rfl⟩
    next hc => exact ⟨hlt, by rw [hc]; rfl, rfl⟩
    next h0 h1 h2 =>
      simp only [imp_false] at h0 h1 h2
      have hc : b % 4 = 3 := by omega
      exact ⟨hlt, by rw [hc]; rfl, rfl⟩

/-- What an edge word with its delta decodes to. -/
theorem decodeEdge2Delta_ok {b : Nat} {i : Instr} (h : decodeEdge2Delta b = .ok i) :
    b < 2 ^ 18 ∧ encode i = ⟨.edge2Delta, b⟩ ∧ i.wellFormed = true := by
  unfold decodeEdge2Delta at h
  split at h
  · cases h
  next hlt =>
    have hlt : b < 2 ^ 18 := by omega
    rw [← edgeWord_of_lt .edge2Delta hlt]
    split at h <;> cases h
    next hc => exact ⟨hlt, by rw [hc, encode_riseRow], wellFormed_riseRow _⟩
    next hc => exact ⟨hlt, by rw [hc, encode_fallRow], wellFormed_fallRow _⟩

/-- What a frame word decodes to. -/
theorem decodeFrame59_ok {u : FrameUnit} {b : Nat} {i : Instr} (h : decodeFrame59 u b = .ok i) :
    b < 2 ^ 59 ∧ encode i = ⟨.frame59 u, b⟩ ∧ i.wellFormed = true := by
  unfold decodeFrame59 at h
  split at h <;> cases h
  next hlt =>
    have hlt : b < 2 ^ 59 := by omega
    exact ⟨hlt, by rw [encode_frameInstr, toBits_ofBits b hlt], wellFormed_frameInstr u _⟩

/-- What a word that decodes is: within its format's width, and the word of a well-formed operation. -/
theorem decode_ok {w : OpWord} {i : Instr} (h : decode w = .ok i) :
    w.bits < 2 ^ w.fmt.width ∧ encode i = w ∧ i.wellFormed = true := by
  obtain ⟨fmt, b⟩ := w
  cases fmt with
  | event3 => exact decodeEvent3_ok h
  | edge2 => exact decodeEdge2_ok h
  | edge2Delta => exact decodeEdge2Delta_ok h
  | frame59 u => exact decodeFrame59_ok h

/-! ## Placing a word -/

/-- The two low bits of an edge word are its edge code, the stored level in bit 1 (R61). -/
theorem edgeCode_testBit (b : Nat) : edgeCode (b.testBit 1) (b.testBit 0) = b % 4 := by
  simp only [edgeCode, Nat.toNat_testBit]
  omega

/-- A placed word is the word the next step fetches. -/
theorem fetch_placeWord {w : OpWord} (s : State) (h : w.bits < 2 ^ w.fmt.width) :
    fetch (placeWord w s) = .word w := by
  obtain ⟨fmt, b⟩ := w
  cases fmt with
  | event3 =>
    have hb : (BitVec.ofNat 3 b).toNat = b := Nat.mod_eq_of_lt h
    simp [fetch, placeWord, hb]
  | edge2 =>
    have hb := edgeWord_of_lt .edge2 (b := b) h
    simp only [fetch, placeWord, edgeCode_testBit, hb]
  | edge2Delta =>
    have hb := edgeWord_of_lt .edge2Delta (b := b) h
    simp only [fetch, placeWord, edgeCode_testBit, hb]
  | frame59 u =>
    have hb := toBits_ofBits b h
    simp only [fetch, placeWord, hb]

/-- Placing a word writes at most `lastLevel`, the frame buffer and the first input. -/
theorem placeWord_keeps (w : OpWord) (s : State) :
    (placeWord w s).stimulus.tail = s.stimulus.tail ∧ (placeWord w s).tRef = s.tRef ∧
      (placeWord w s).cursor = s.cursor ∧ (placeWord w s).healthFlag = s.healthFlag ∧
      (placeWord w s).decoded = s.decoded := by
  obtain ⟨fmt, b⟩ := w
  cases fmt <;> simp [placeWord]

/-- A word known by its bit count decodes in the format of that count, and is placed in it. -/
theorem decodeTableWord_some {nbits w : Nat} {i : Instr} (h : decodeTableWord nbits w = some i) :
    ∃ fmt, decode ⟨fmt, w⟩ = .ok i ∧ ∀ s : State, s.withFetchWord nbits w = placeWord ⟨fmt, w⟩ s := by
  cases hf : formatOf nbits with
  | none => simp [decodeTableWord, hf] at h
  | some fmt =>
    refine ⟨fmt, ?_, fun s => by simp [State.withFetchWord, placeTableWord, hf]⟩
    cases hd : decode ⟨fmt, w⟩ with
    | ok j => simpa [decodeTableWord, hf, hd, Except.toOption] using h
    | error e => simp [decodeTableWord, hf, hd, Except.toOption] at h

/-! ## Edges by their delta, and the difference of two timestamps (R64) -/

/-- A FALL at `tRef + d` is the falling edge already classified by `d`. -/
theorem exec_fall_add (d : Timestamp) (s : State) :
    exec (.fall (s.tRef + d)) s = .next (tickFallAs (classifyFall d) d s).2 := by
  simp only [exec, execFall, tickFall, delta_add, tickFallAs]

/-- A RISE at `tRef + d` is the rising edge already classified by `d`. -/
theorem exec_rise_add (d : Timestamp) (s : State) :
    exec (.rise (s.tRef + d)) s = .next (tickRiseAs (classifyRise d) s).2 := by
  simp only [exec, execRise, tickRise, delta_add, tickRiseAs]

/-- The state with its stored timestamp `k` higher, modulo 65536. -/
def shiftRef (k : Timestamp) (s : State) : State := { s with tRef := s.tRef + k }

/-- A difference is the same for two timestamps moved by the same amount, across a wrap or not. -/
theorem deltaOf_shiftRef (ts k : Timestamp) (s : State) : deltaOf (ts + k) (shiftRef k s) = deltaOf ts s :=
  add_sub_add_right_eq_sub ts s.tRef k

theorem complete_shiftRef (f : Frame) (k : Timestamp) (s : State) :
    complete f (shiftRef k s) = Prod.map id (shiftRef k) (complete f s) := by
  cases h : firstFailure f with
  | none => rw [complete_of_pass f _ h, complete_of_pass f _ h]; rfl
  | some e => rw [complete_of_fail f _ e h, complete_of_fail f _ e h]; rfl

/-- `Process` neither reads nor writes the stored timestamp (R3). -/
theorem process_shiftRef (ev : Event) (k : Timestamp) (s : State) :
    process ev (shiftRef k s) = Prod.map id (shiftRef k) (process ev s) := by
  cases ev with
  | noEvent | zeroBit | oneBit | invalid => rfl
  | secondMark =>
    by_cases h : s.cursor.val = 58
    · simp only [process]
      rw [processSecondMark_of_max _ h, processSecondMark_of_max (shiftRef k s) h]
      rfl
    · have hc : s.cursor.val + 1 < 59 := by omega
      simp only [process]
      rw [processSecondMark_of_lt _ ⟨_, hc⟩ rfl, processSecondMark_of_lt (shiftRef k s) ⟨_, hc⟩ rfl]
      rfl
  | minuteMark =>
    by_cases h : s.cursor.val = 58
    · simp only [process]
      rw [processMinuteMark_of_max _ h, processMinuteMark_of_max (shiftRef k s) h]
      exact complete_shiftRef s.frame k s
    · simp only [process]
      rw [processMinuteMark_of_ne _ h, processMinuteMark_of_ne (shiftRef k s) h]
      rfl

/-- A FALL moved with the stored timestamp has the same effect, its stored timestamp moved too. -/
theorem tickFall_shiftRef (ts k : Timestamp) (s : State) :
    tickFall (ts + k) (shiftRef k s) = Prod.map id (shiftRef k) (tickFall ts s) := by
  rw [tickFall, deltaOf_shiftRef]
  exact process_shiftRef _ k (sampleFall ts s)

theorem tickRise_shiftRef (ts k : Timestamp) (s : State) :
    tickRise (ts + k) (shiftRef k s) = Prod.map id (shiftRef k) (tickRise ts s) := by
  rw [tickRise, deltaOf_shiftRef]
  exact process_shiftRef _ k (sampleRise s)

/-! ## Frames that agree from slot 21 on (R71) -/

section
variable {f g : Frame} (h : ∀ i : Fin 59, 21 ≤ i.val → f[i] = g[i])
include h

theorem parity_congr_high (a b : Nat) (ha : 21 ≤ a) (hab : a ≤ b) (hb : b ≤ 58) :
    parity f a b = parity g a b := by
  rw [parity, parity, memRead_congr f g a _ h ha (by omega)]

theorem fieldSum_congr_high {lo : Nat} {ws : List Nat} (hlo : 21 ≤ lo) (hw : lo + ws.length ≤ 59) :
    fieldSum f lo ws = fieldSum g lo ws := by
  rw [fieldSum, fieldSum, memRead_congr f g lo _ h hlo hw]

theorem minuteOf_congr_high : minuteOf f = minuteOf g := fieldSum_congr_high h (by decide) (by decide)
theorem hourOf_congr_high : hourOf f = hourOf g := fieldSum_congr_high h (by decide) (by decide)
theorem dayOf_congr_high : dayOf f = dayOf g := fieldSum_congr_high h (by decide) (by decide)
theorem weekdayOf_congr_high : weekdayOf f = weekdayOf g := fieldSum_congr_high h (by decide) (by decide)
theorem monthOf_congr_high : monthOf f = monthOf g := fieldSum_congr_high h (by decide) (by decide)
theorem yearOf_congr_high : yearOf f = yearOf g :=
  congrArg (· + Config.YEAR_BASE) (fieldSum_congr_high h (by decide) (by decide))

/-- Every check reads slots from 21 on. -/
theorem firstFailure_congr_high : firstFailure f = firstFailure g := by
  simp only [firstFailure, checkParityMinute, checkParityHour, checkParityDate, checkMinute, checkHour, checkDay,
    checkWeekday, checkMonth, checkYear, minuteOf_congr_high h, hourOf_congr_high h, dayOf_congr_high h,
    weekdayOf_congr_high h, monthOf_congr_high h, yearOf_congr_high h,
    parity_congr_high h 21 28 (by decide) (by decide) (by decide),
    parity_congr_high h 29 35 (by decide) (by decide) (by decide),
    parity_congr_high h 36 58 (by decide) (by decide) (by decide)]

theorem decodedOf_congr_high : decodedOf f = decodedOf g := by
  simp only [decodedOf, minuteOf_congr_high h, hourOf_congr_high h, dayOf_congr_high h, weekdayOf_congr_high h,
    monthOf_congr_high h, yearOf_congr_high h]

theorem complete_congr_high (s : State) : complete f s = complete g s := by
  simp only [complete, firstFailure_congr_high h, decodedOf_congr_high h]

end

/-! ## Event codes -/

/-- Only its own code decodes to an event (R62). -/
theorem code_of_ofCode {c : BitVec 3} {e : Event} (h : Event.ofCode c = some e) : e.code = c := by
  apply BitVec.eq_of_toNat_eq
  unfold Event.ofCode at h
  split at h <;> cases h
  all_goals exact Eq.symm ‹_›

/-! ## The obligations -/

/-- Settles O54: per format, the word of a row carries its code and its whole operand, and a delta in a row's
window selects that row again. -/
theorem decodeEncodeAgree : Obligations.DecodeEncodeAgree := by
  intro i hwf
  cases i with
  | noEvent | secondMark | zeroBit | oneBit | minuteMark | invalid | reservedEvent6 | reservedEvent7 => rfl
  | holdLow ts => exact decodeEdge2_edge 0 (by decide) ts
  | rise ts => exact decodeEdge2_edge 1 (by decide) ts
  | fall ts => exact decodeEdge2_edge 2 (by decide) ts
  | holdHigh ts => exact decodeEdge2_edge 3 (by decide) ts
  | fallSecondMark d => exact (decode_fallEdge d).trans (by rw [fallRow, (wellFormed_fallSecondMark d).1 hwf])
  | fallMinuteMark d => exact (decode_fallEdge d).trans (by rw [fallRow, (wellFormed_fallMinuteMark d).1 hwf])
  | fallInvalid d => exact (decode_fallEdge d).trans (by rw [fallRow, (wellFormed_fallInvalid d).1 hwf])
  | riseZeroBit d => exact (decode_riseEdge d).trans (by rw [riseRow, (wellFormed_riseZeroBit d).1 hwf])
  | riseOneBit d => exact (decode_riseEdge d).trans (by rw [riseRow, (wellFormed_riseOneBit d).1 hwf])
  | riseInvalid d => exact (decode_riseEdge d).trans (by rw [riseRow, (wellFormed_riseInvalid d).1 hwf])
  | frame f => exact decode_frameWord .complete f
  | parityMinute f => exact decode_frameWord .parityMinute f
  | parityHour f => exact decode_frameWord .parityHour f
  | parityDate f => exact decode_frameWord .parityDate f
  | fieldMinute f => exact decode_frameWord .fieldMinute f
  | fieldHour f => exact decode_frameWord .fieldHour f
  | fieldDay f => exact decode_frameWord .fieldDay f
  | fieldWeekday f => exact decode_frameWord .fieldWeekday f
  | fieldMonth f => exact decode_frameWord .fieldMonth f
  | fieldYear f => exact decode_frameWord .fieldYear f

/-- Settles O16: `delta` of `tRef + d` is `d`, and a well-formed row's window is the one that classifies `d` as
the row's event. -/
theorem classifiedEdgesAreSubcases : Obligations.ClassifiedEdgesAreSubcases := by
  intro s d
  simp only [exec_fall_add, exec_rise_add, wellFormed_fallSecondMark, wellFormed_fallMinuteMark,
    wellFormed_fallInvalid, wellFormed_riseZeroBit, wellFormed_riseOneBit, wellFormed_riseInvalid]
  refine ⟨?_, ?_, ?_, ?_, ?_, ?_⟩ <;> (intro hc; rw [hc]; rfl)

/-- Settles O17: the sampler reads timestamps through their difference alone, and `Process` not at all. -/
theorem onlyDifferencesMatter : Obligations.OnlyDifferencesMatter := by
  intro s ts k
  refine ⟨⟨_, rfl, ?_⟩, ⟨_, rfl, ?_⟩⟩
  · exact congrArg (fun r : TickOutcome × State => Host.Outcome.next r.2) (tickFall_shiftRef ts k s)
  · exact congrArg (fun r : TickOutcome × State => Host.Outcome.next r.2) (tickRise_shiftRef ts k s)

/-- Settles O27: every read of frame completion starts at slot 21 or above. -/
theorem lowSlotsAreIgnored : Obligations.LowSlotsAreIgnored := by
  intro f g s h
  have hc := complete_congr_high h s
  exact ⟨congrArg (fun r : TickOutcome × State => Host.Outcome.next r.2) hc,
    congrArg (fun r : TickOutcome × State => some r.1) hc⟩

/-- Settles O55: what `decode_ok` says without the width. -/
theorem encodeDecodeAgree : Obligations.EncodeDecodeAgree :=
  fun _ _ h => (decode_ok h).2

/-- Settles O57: a word that decodes fits its format, so the next step fetches the placed word as it is. -/
theorem placedWordRunsNext : Obligations.PlacedWordRunsNext := by
  intro s nbits w i h
  obtain ⟨fmt, hd, hplace⟩ := decodeTableWord_some h
  refine ⟨consume (placeWord ⟨fmt, w⟩ s), ?_, placeWord_keeps ⟨fmt, w⟩ s⟩
  rw [hplace]
  exact step_of_decoded (fetch_placeWord s (decode_ok hd).1) hd

/-- Settles O9: an event's code is at most 5. -/
theorem reservedCodesRefused : Obligations.ReservedCodesRefused := by
  refine ⟨fun _ => rfl, fun _ => rfl, rfl, rfl, fun level ts s => ?_⟩
  have hle := Event.code_toNat_le (classify level ts s).1
  constructor <;> (intro hc; rw [hc] at hle; exact absurd hle (by decide))

/-- Settles O10: the table of codes, and the decoder of codes inverts it. -/
theorem eventCodesAsListed : Obligations.EventCodesAsListed := by
  refine ⟨⟨rfl, rfl, rfl, rfl, rfl, rfl⟩, fun c e => ⟨code_of_ofCode, ?_⟩⟩
  rintro rfl
  exact Event.ofCode_code e

/-- Settles O53: nine of the words are the words of their rows, which the round trip of O54 decodes; a HOLD
code has no delta. -/
theorem specWordsDecode : Obligations.SpecWordsDecode := by
  have hframe : encode (.fieldYear ((Vector.replicate 59 false).set 57 true)) = ⟨.frame59 .fieldYear, 2 ^ 57⟩ := by
    decide
  exact ⟨decodeEncodeAgree .secondMark rfl, decodeEncodeAgree .minuteMark rfl, decodeEncodeAgree .reservedEvent7 rfl,
    decodeEncodeAgree (.fall 1000) rfl, decodeEncodeAgree (.holdHigh 0) rfl,
    decodeEncodeAgree (.fallSecondMark 900) rfl, decodeEncodeAgree (.fallInvalid 899) rfl,
    decodeEncodeAgree (.riseOneBit 230) rfl, rfl, hframe ▸ decodeEncodeAgree _ rfl⟩

/-- Settles O58: each event's window, and `Invalid` outside the two of its edge. -/
theorem windowsPartitionDelta : Obligations.WindowsPartitionDelta := by
  intro d
  refine ⟨?_, (classifyFall_eq_secondMark d).symm, (classifyFall_eq_minuteMark d).symm, ?_,
    (classifyRise_eq_zeroBit d).symm, (classifyRise_eq_oneBit d).symm⟩
  · rw [classifyFall_eq_invalid]; omega
  · rw [classifyRise_eq_invalid]; omega

end Sys2Proof.Machine
end

section
/-! SUPPORT. Proofs of the family 40_signal_sampler: `Classify` by the edge, the sampler's registers after a tick, an edge row by the event of its edge, and the live strobe. -/

namespace Sys2Proof.Machine

/-! ## The windows as one table (R65, R66) -/

theorem classifyFall_eq_ite (gap : Timestamp) :
    classifyFall gap = if 900 ≤ gap.toNat ∧ gap.toNat ≤ 1100 then .secondMark
      else if 1900 ≤ gap.toNat ∧ gap.toNat ≤ 2100 then .minuteMark else .invalid := by
  simp only [classifyFall, decide_eq_true_eq]

theorem classifyRise_eq_ite (width : Timestamp) :
    classifyRise width = if 70 ≤ width.toNat ∧ width.toNat ≤ 130 then .zeroBit
      else if 170 ≤ width.toNat ∧ width.toNat ≤ 230 then .oneBit else .invalid := by
  simp only [classifyRise, decide_eq_true_eq]

/-! ## `Classify` by the edge (R81 to R84) -/

theorem sampleHold_of_eq {level : Bool} {s : State} (h : s.lastLevel = level) : sampleHold level s = s :=
  State.eq_of_fields h.symm rfl rfl rfl rfl rfl rfl

theorem classify_of_hold {level : Bool} {s : State} (ts : Timestamp) (h : s.lastLevel = level) :
    classify level ts s = (.noEvent, sampleHold level s) :=
  if_pos h.symm

theorem classify_of_fall {s : State} (ts : Timestamp) (h : s.lastLevel = true) :
    classify false ts s = (classifyFall (deltaOf ts s), sampleFall ts s) := by
  rw [classify, h]; rfl

theorem classify_of_rise {s : State} (ts : Timestamp) (h : s.lastLevel = false) :
    classify true ts s = (classifyRise (deltaOf ts s), sampleRise s) := by
  rw [classify, h]; rfl

/-- `Classify` takes the level presented, and the timestamp exactly at a falling edge (R84). -/
theorem classify_sampler (level : Bool) (ts : Timestamp) (s : State) :
    (classify level ts s).2.lastLevel = level ∧
    (classify level ts s).2.tRef = (if s.lastLevel = true ∧ level = false then ts else s.tRef) ∧
    (classify level ts s).2.stimulus = s.stimulus := by
  cases hl : s.lastLevel <;> cases level
  · rw [classify_of_hold ts hl]; exact ⟨rfl, rfl, rfl⟩
  · rw [classify_of_rise ts hl]; exact ⟨rfl, rfl, rfl⟩
  · rw [classify_of_fall ts hl]; exact ⟨rfl, rfl, rfl⟩
  · rw [classify_of_hold ts hl]; exact ⟨rfl, rfl, rfl⟩

/-- The same of a whole tick: `Process` writes no register of the sampler. -/
theorem tick_sampler (level : Bool) (ts : Timestamp) (s : State) :
    (tick level ts s).2.lastLevel = level ∧
    (tick level ts s).2.tRef = (if s.lastLevel = true ∧ level = false then ts else s.tRef) ∧
    (tick level ts s).2.stimulus = s.stimulus := by
  obtain ⟨hl, ht, hs⟩ := process_sampler (classify level ts s).1 (classify level ts s).2
  obtain ⟨cl, ct, cs⟩ := classify_sampler level ts s
  exact ⟨hl.trans cl, ht.trans ct, hs.trans cs⟩

/-! ## An edge row is `Process` of its edge's event on the sampled registers -/

theorem exec_fall_of_process {ts : Timestamp} {s t : State} {ev : Event} {o : TickOutcome}
    (hev : classifyFall (deltaOf ts s) = ev) (hp : process ev (sampleFall ts s) = (o, t)) :
    exec (.fall ts) s = .next t := by
  simp only [exec, execFall, tickFall, hev, hp]

theorem exec_rise_of_process {ts : Timestamp} {s t : State} {ev : Event} {o : TickOutcome}
    (hev : classifyRise (deltaOf ts s) = ev) (hp : process ev (sampleRise s) = (o, t)) :
    exec (.rise ts) s = .next t := by
  simp only [exec, execRise, tickRise, hev, hp]

/-- A bit stored at a rising edge: the level and the slot at the cursor, nothing else (R42, R84). -/
theorem writeSlot_sampleRise (b : Bool) (s : State) :
    SlotWritten s (writeSlot b (sampleRise s)) b ∧
      writeSlot b (sampleRise s) = { s with lastLevel := true, frame := (writeSlot b (sampleRise s)).frame } :=
  ⟨slotWritten_of_writeSlot s b _ rfl, rfl⟩

/-! ## What the marks leave unchanged -/

/-- Only a bit event stores (R42). -/
theorem process_frame {ev : Event} (s : State) (h0 : ev ≠ .zeroBit) (h1 : ev ≠ .oneBit) :
    (process ev s).2.frame = s.frame := by
  obtain hf | ⟨-, ⟨hev, -⟩ | ⟨hev, -⟩⟩ := process_stores ev s
  · exact hf
  · exact absurd (Option.some.inj hev) h0
  · exact absurd (Option.some.inj hev) h1

/-- A second mark moves on or overflows; neither commits (R102). -/
theorem process_secondMark_decoded (s : State) : (process .secondMark s).2.decoded = s.decoded := by
  by_cases h : s.cursor.val = 58
  · exact congrArg (fun r : TickOutcome × State => r.2.decoded) (processSecondMark_of_max s h)
  · have hc : s.cursor.val + 1 < 59 := by omega
    exact congrArg (fun r : TickOutcome × State => r.2.decoded) (processSecondMark_of_lt s ⟨_, hc⟩ rfl)

/-- A minute mark discards or commits, and both rewind the cursor (R105). -/
theorem process_minuteMark_cursor (s : State) : (process .minuteMark s).2.cursor = 0 := by
  obtain ⟨⟨⟩, _⟩ | ⟨⟨⟩, _⟩ | ⟨⟨⟩, _⟩ | ⟨⟨⟩, _⟩ | ⟨⟨⟩, _⟩ | ⟨_, e, _, _, h⟩ | ⟨_, _, _, h⟩ | ⟨⟨⟩, _⟩ :=
    process_cases .minuteMark s <;> rw [h]
  exacts [rfl, rfl]

/-! ## The live strobe -/

theorem liveStrobe_tick {s : State} {level : Bool} {ts : Timestamp} {rest : List Stimulus}
    (h : s.stimulus = .clock false true level ts :: rest) :
    liveStrobe s = some (decide ((classify level ts s).1 ≠ .noEvent)) := by
  have hf : fetch s = .word (edgeWord .edge2 (edgeCode s.lastLevel level) ts) := by simp [fetch, h]
  simp only [liveStrobe, hf, nextEvent_tick s level ts rest h, Option.map_some]
  exact congrArg some (Bool.eq_iff_iff.2 (by simp))

/-! ## Edges with an event -/

/-- A tick with an event other than `NoEvent` is a falling edge with an event of the falling set, or a rising
edge with one of the rising set (R81 to R83). -/
theorem classify_edge {level : Bool} {ts : Timestamp} {s : State} (h : (classify level ts s).1 ≠ .noEvent) :
    (s.lastLevel = true ∧ level = false ∧ ((classify level ts s).1 = .secondMark ∨
      (classify level ts s).1 = .minuteMark ∨ (classify level ts s).1 = .invalid)) ∨
    (s.lastLevel = false ∧ level = true ∧ ((classify level ts s).1 = .zeroBit ∨
      (classify level ts s).1 = .oneBit ∨ (classify level ts s).1 = .invalid)) := by
  rw [Ne, classify_noEvent] at h
  cases level with
  | false =>
    have hl : s.lastLevel = true := by simpa using h
    rw [classify_of_fall ts hl]
    exact .inl ⟨hl, rfl, classifyFall_cases _⟩
  | true =>
    have hl : s.lastLevel = false := by simpa using h
    rw [classify_of_rise ts hl]
    exact .inr ⟨hl, rfl, classifyRise_cases _⟩

/-- A tick and then clock edges that keep its level: the run ends with the tick's registers, the inputs after
them next (R81). -/
theorem run_tick_quiet {s : State} {level : Bool} {ts : Timestamp} {quiet rest : List Stimulus}
    (h : s.stimulus = .clock false true level ts :: (quiet ++ rest)) (hq : ∀ x ∈ quiet, x.quietAt level = true) :
    Sys2Proof.core.run (quiet.length + 1) s = .next { (tick level ts (consume s)).2 with stimulus := rest } := by
  obtain ⟨hlevel, -, hstim⟩ := tick_sampler level ts (consume s)
  rw [run_succ_of_next _ (step_eq_tick s level ts _ h)]
  apply run_quiet
  · simp [hstim, h]
  · rwa [hlevel]

/-! ## The obligations -/

/-- Settles O12: the gap's window gives the event, and the event's own rule gives the effect on the sampled
registers. -/
theorem fallClassifiesTheGap : Obligations.FallClassifiesTheGap := by
  intro s ts
  simp only [gap_eq]
  have second h1 h2 := (classifyFall_eq_secondMark (deltaOf ts s)).2 ⟨h1, h2⟩
  have minute h1 h2 := (classifyFall_eq_minuteMark (deltaOf ts s)).2 ⟨h1, h2⟩
  refine ⟨fun c h1 h2 hc => ?_, fun h1 h2 hc => ?_, fun h1 h2 hc => ?_, fun d h1 h2 hc hp hd => ?_,
    fun h1 h2 hc hp => ?_, fun h1 h2 => ?_, ?_⟩
  · exact exec_fall_of_process (second h1 h2) (processSecondMark_of_lt (sampleFall ts s) c hc)
  · exact exec_fall_of_process (second h1 h2) (processSecondMark_of_max (sampleFall ts s) hc)
  · exact exec_fall_of_process (minute h1 h2) (processMinuteMark_of_ne (sampleFall ts s) hc)
  · exact exec_fall_of_process (minute h1 h2) ((processMinuteMark_of_max (sampleFall ts s) hc).trans
      (complete_of_passes (sampleFall ts s) hp hd))
  · obtain ⟨e, -, -, he⟩ := complete_of_not_passes (sampleFall ts s) hp
    exact exec_fall_of_process (minute h1 h2) ((processMinuteMark_of_max (sampleFall ts s) hc).trans he)
  · exact exec_fall_of_process ((classifyFall_eq_invalid _).2 ⟨h1, h2⟩) rfl
  · exact congrArg some (classifyFall_eq_ite _)

/-- Settles O13: the width's window gives the event; a bit event stores its bit, `Invalid` raises the flag. -/
theorem riseClassifiesTheWidth : Obligations.RiseClassifiesTheWidth := by
  intro s ts
  simp only [gap_eq]
  refine ⟨fun h1 h2 => ⟨_, ?_, writeSlot_sampleRise false s⟩, fun h1 h2 => ⟨_, ?_, writeSlot_sampleRise true s⟩,
    fun h1 h2 => ?_, ?_⟩
  · exact exec_rise_of_process ((classifyRise_eq_zeroBit _).2 ⟨h1, h2⟩) rfl
  · exact exec_rise_of_process ((classifyRise_eq_oneBit _).2 ⟨h1, h2⟩) rfl
  · exact exec_rise_of_process ((classifyRise_eq_invalid _).2 ⟨h1, h2⟩) rfl
  · exact congrArg some (classifyRise_eq_ite _)

/-- Settles O14: what `tick_sampler` says of the tick a step runs. -/
theorem samplerRegistersAfterATick : Obligations.SamplerRegistersAfterATick := by
  intro s level ts rest h
  obtain ⟨hlevel, href, -⟩ := tick_sampler level ts (consume s)
  exact ⟨_, step_eq_tick s level ts rest h, hlevel, href⟩

/-- Settles O15: each row is `Process` of its event on the sampled registers, and `Process` of a mark leaves the
sampler's registers and the frame. -/
theorem classifiedEdgesRunTheirEvent : Obligations.ClassifiedEdgesRunTheirEvent := by
  intro s d
  obtain ⟨levelS, refS, -⟩ := process_sampler .secondMark (sampleFall (s.tRef + d) s)
  obtain ⟨levelM, refM, -⟩ := process_sampler .minuteMark (sampleFall (s.tRef + d) s)
  refine ⟨⟨_, rfl, rfl, levelS, refS, ?_, ?_⟩, ⟨_, rfl, rfl, levelM, refM, ?_, ?_⟩, rfl,
    ⟨_, rfl, writeSlot_sampleRise false s⟩, ⟨_, rfl, writeSlot_sampleRise true s⟩, rfl⟩
  · exact process_frame (ev := .secondMark) _ (by decide) (by decide)
  · exact process_secondMark_decoded _
  · exact process_frame (ev := .minuteMark) _ (by decide) (by decide)
  · exact process_minuteMark_cursor _

/-- Settles O19: the strobe is the tick's event against `NoEvent`, which is the event exactly of a tick that holds
the level. -/
theorem liveStrobeAtEveryEdge : Obligations.LiveStrobeAtEveryEdge := by
  intro s level ts rest h
  refine ⟨liveStrobe_tick h, ?_⟩
  rw [liveStrobe_tick h]
  simp only [ne_eq, classify_noEvent]

/-- Settles O20: the quiet clock edges leave `lastLevel` at the first edge's level, so the next edge leaves that
level, and each edge's direction fixes its set of events. -/
theorem edgesAlternate : Obligations.EdgesAlternate := by
  intro s t l1 l2 ts1 ts2 quiet rest e1 e2 h hq hrun h1 h2 hne1 hne2
  cases (run_tick_quiet h hq).symm.trans hrun
  cases (nextEvent_tick s l1 ts1 _ h).symm.trans h1
  cases (nextEvent_tick _ l2 ts2 rest rfl).symm.trans h2
  have hlevel := (tick_sampler l1 ts1 (consume s)).1
  obtain ⟨-, hl1, hset1⟩ | ⟨-, hl1, hset1⟩ := classify_edge hne1 <;>
    obtain ⟨hlast, hl2, hset2⟩ | ⟨hlast, hl2, hset2⟩ := classify_edge hne2
  · exact absurd (hl1.symm.trans (hlevel.symm.trans hlast)) (by decide)
  · exact .inl ⟨hl1, hl2, hset1, hset2⟩
  · exact .inr ⟨hl1, hl2, hset1, hset2⟩
  · exact absurd (hl1.symm.trans (hlevel.symm.trans hlast)) (by decide)

/-- Settles O11: a HOLD row writes its own level alone, and a tick at the stored level is a quiet clock edge. -/
theorem holdTicksChangeNothing : Obligations.HoldTicksChangeNothing := by
  intro s ts
  refine ⟨⟨rfl, rfl⟩, fun h => ⟨?_, rfl⟩, fun h => ⟨?_, rfl⟩, fun rest h => ?_⟩
  · exact congrArg Host.Outcome.next (sampleHold_of_eq h)
  · exact congrArg Host.Outcome.next (sampleHold_of_eq h)
  · exact step_of_quiet s _ rest h (by simp [Stimulus.quietAt])

end Sys2Proof.Machine
end

section
/-! SUPPORT. Proofs of the family 41_frame_assembler: an event row as `Process`, a minute mark as frame completion, runs of second marks, and feeding a frame. -/

namespace Sys2Proof.Machine

/-! ## An event row is `Process` of its event -/

/-- The EVENT3 row of an event (R62). -/
def eventRow : Event → Instr
  | .noEvent => .noEvent
  | .secondMark => .secondMark
  | .zeroBit => .zeroBit
  | .oneBit => .oneBit
  | .minuteMark => .minuteMark
  | .invalid => .invalid

theorem eventRow_of_process {ev : Event} {s t : State} {o : TickOutcome} (h : process ev s = (o, t)) :
    exec (eventRow ev) s = .next t ∧ outcomeOf (eventRow ev) s = some o := by
  have hx : exec (eventRow ev) s = .next (process ev s).2 := by cases ev <;> rfl
  have ho : outcomeOf (eventRow ev) s = some (process ev s).1 := by cases ev <;> rfl
  rw [hx, ho, h]
  exact ⟨rfl, rfl⟩

/-! ## Frame completion, and the minute mark that enters it -/

theorem frame_of_complete {f : Frame} {s t : State} {o : TickOutcome} (h : complete f s = (o, t)) :
    exec (.frame f) s = .next t ∧ outcomeOf (.frame f) s = some o :=
  ⟨congrArg (fun r : TickOutcome × State => Host.Outcome.next r.2) h,
    congrArg (fun r : TickOutcome × State => some r.1) h⟩

theorem frame_of_passes {f : Frame} {d : DecodedTime} (s : State) (hp : Passes f) (hd : Spells f d) :
    exec (.frame f) s = .next (committed d s) ∧ outcomeOf (.frame f) s = some .commit :=
  frame_of_complete (complete_of_passes s hp hd)

theorem frame_of_not_passes {f : Frame} (s : State) (hp : ¬ Passes f) :
    exec (.frame f) s = .next (discarded s) ∧ outcomeOf (.frame f) s ≠ some .commit := by
  obtain ⟨e, -, he, hc⟩ := complete_of_not_passes s hp
  obtain ⟨hx, ho⟩ := frame_of_complete hc
  refine ⟨hx, fun h => ?_⟩
  exact number_ne_commit (by omega) (Option.some.inj (ho.symm.trans h))

/-- At the last slot a minute mark is FRAME on the buffer (R105). -/
theorem minuteMark_of_max {s : State} (h : s.cursor.val = 58) :
    exec .minuteMark s = exec (.frame s.frame) s ∧ outcomeOf .minuteMark s = outcomeOf (.frame s.frame) s :=
  eventRow_of_process (ev := .minuteMark) (processMinuteMark_of_max s h)

/-- `Process` commits exactly on a minute mark at the last slot with a passing buffer (R105, R138). -/
theorem process_eq_commit (ev : Event) (s : State) :
    (process ev s).1 = .commit ↔ ev = .minuteMark ∧ s.cursor.val = 58 ∧ Passes s.frame := by
  constructor
  · intro hc
    obtain ⟨_, h⟩ | ⟨_, c, _, h⟩ | ⟨_, _, h⟩ | ⟨_, h⟩ | ⟨_, h⟩ | ⟨_, e, he, _, h⟩ | ⟨hev, h58, hp, h⟩ | ⟨_, h⟩ :=
      process_cases ev s <;> rw [h] at hc
    · cases hc
    · cases hc
    · cases hc
    · cases hc
    · cases hc
    · exact absurd hc (number_ne_commit (e := e) (by omega))
    · exact ⟨hev, h58, hp⟩
    · cases hc
  · rintro ⟨rfl, h58, hp⟩
    exact congrArg Prod.fst ((processMinuteMark_of_max s h58).trans
      (complete_of_passes s hp (spells_decodedOf _ hp)))

/-- After a minute mark the flag is clear exactly when the label is the commit (R105). -/
theorem process_minuteMark_healthFlag (s : State) :
    (process .minuteMark s).2.healthFlag = false ↔ (process .minuteMark s).1 = .commit := by
  obtain ⟨⟨⟩, _⟩ | ⟨⟨⟩, _⟩ | ⟨⟨⟩, _⟩ | ⟨⟨⟩, _⟩ | ⟨⟨⟩, _⟩ | ⟨_, e, he, _, h⟩ | ⟨_, _, _, h⟩ | ⟨⟨⟩, _⟩ :=
    process_cases .minuteMark s <;> rw [h]
  · exact iff_of_false (by simp [discarded]) (number_ne_commit (e := e) (by omega))
  · exact iff_of_true rfl rfl

/-! ## A step by its event, and the commit strobe of a tick -/

/-- An operation with an event is `Process` of it on the sampled registers. -/
theorem exec_of_event {i : Instr} {s : State} {ev : Event} (hev : eventOf i s = some ev) :
    ∃ s1, outcomeOf i s = some (process ev s1).1 ∧ exec i s = .next (process ev s1).2 := by
  obtain ⟨c, rfl | rfl, _⟩ | ⟨ev', s1, hev', _, ho, hx⟩ | ⟨hno, _⟩ | ⟨hno, _⟩ | ⟨f, rfl, _⟩ := exec_cases i s
  · cases hev
  · cases hev
  · cases hev'.symm.trans hev; exact ⟨s1, ho, hx⟩
  · cases hno.symm.trans hev
  · cases hno.symm.trans hev
  · cases hev

/-- A step with an event is `Process` of it, on registers the sampler may have written. -/
theorem step_of_event {s : State} {ev : Event} (hev : nextEvent s = some ev) :
    ∃ s1, nextOutcome s = some (process ev s1).1 ∧ step s = .next (process ev s1).2 := by
  obtain ⟨i, hn, hi⟩ := Option.bind_eq_some_iff.1 hev
  obtain ⟨hf, _⟩ | ⟨hf, _⟩ | ⟨w, j, _, _, hj, hs⟩ | ⟨w, e, hf, hd, _⟩ := step_cases s
  · simp [nextInstr, hf] at hn
  · simp [nextInstr, hf] at hn
  · cases hj.symm.trans hn
    rw [← eventOf_consume] at hi
    obtain ⟨s1, ho, hx⟩ := exec_of_event hi
    rw [outcomeOf_consume, ← nextOutcome_eq s i hn] at ho
    exact ⟨s1, ho, hs.trans hx⟩
  · simp [nextInstr, hf, hd, Except.toOption] at hn

@[simp] theorem classify_frame (level : Bool) (ts : Timestamp) (s : State) :
    (classify level ts s).2.frame = s.frame := by
  unfold classify
  split_ifs <;> rfl

theorem commitStrobe_tick {s : State} {level : Bool} {ts : Timestamp} {rest : List Stimulus}
    (h : s.stimulus = .clock false true level ts :: rest) :
    commitStrobe s = some ((tick level ts s).1 == .commit) := by
  have hf : fetch s = .word (edgeWord .edge2 (edgeCode s.lastLevel level) ts) := by simp [fetch, h]
  rw [commitStrobe_eq s _ _ hf (nextInstr_of_tick s level ts rest h), (exec_tickInstr s level ts).2.2, Option.map_some]

/-- `Classify` leaves the buffer and the cursor, so a tick commits as its event does on the registers before it. -/
theorem tick_eq_commit (level : Bool) (ts : Timestamp) (s : State) :
    (tick level ts s).1 = .commit ↔
      (classify level ts s).1 = .minuteMark ∧ s.cursor.val = 58 ∧ Passes s.frame := by
  rw [tick, process_eq_commit, classify_cursor, classify_frame]

/-! ## Runs of operations -/

theorem execAll_cons {i : Instr} {s t : State} (rest : List Instr) (h : exec i s = .next t) :
    execAll (i :: rest) s = execAll rest t := by
  simp only [execAll, h]

theorem execAll_singleton {i : Instr} {s t : State} (h : exec i s = .next t) : execAll [i] s = .next t :=
  execAll_cons [] h

theorem exec_secondMark_of_max {s : State} (h : s.cursor.val = 58) : exec .secondMark s = .next (discarded s) :=
  (eventRow_of_process (ev := .secondMark) (processSecondMark_of_max s h)).1

/-- Second marks that do not pass the last slot only move the cursor (R102). -/
theorem execAll_secondMarks (n : Nat) (s : State) (c : Cursor) (h : c.val = s.cursor.val + n) :
    execAll (List.replicate n .secondMark) s = .next { s with cursor := c } := by
  induction n generalizing s with
  | zero =>
    have hc : s.cursor = c := Fin.ext h.symm
    exact congrArg Host.Outcome.next (State.eq_of_fields rfl rfl rfl hc rfl rfl rfl)
  | succ n ih =>
    have hlt : s.cursor.val + 1 < 59 := by omega
    rw [List.replicate_succ, execAll_cons _ (exec_secondMark_of_lt s ⟨_, hlt⟩ rfl)]
    exact ih { s with cursor := ⟨_, hlt⟩ } (by simp only; omega)

/-! ## Feeding a frame (R109) -/

/-- The buffer of `s` holds the slots of `f` up to the cursor, that slot included. -/
def StoredThroughCursor (f : Frame) (s : State) : Prop := ∀ j : Fin 59, j ≤ s.cursor → s.frame[j] = f[j]

/-- The first bit of a frame, stored at cursor 0. -/
theorem storedThroughCursor_first (f : Frame) {s : State} (h : s.cursor = 0) :
    StoredThroughCursor f (writeSlot f[0] s) := by
  intro j hj
  have hj0 : j = 0 := Fin.le_zero_iff.1 (h ▸ hj)
  simp [hj0, h]

/-- A second mark and the next bit extend what is stored by one slot. -/
theorem StoredThroughCursor.succ {f : Frame} {s : State} {c : Cursor} (hs : StoredThroughCursor f s)
    (hc : c.val = s.cursor.val + 1) : StoredThroughCursor f (writeSlot f[c] { s with cursor := c }) := by
  intro j hj
  have hj : j ≤ c := hj
  obtain rfl | hne := eq_or_ne c j
  · simp
  · have hval : c.val ≠ j.val := Fin.val_ne_of_ne hne
    have hbefore : j ≤ s.cursor := Fin.le_def.2 (by omega)
    simpa [hval] using hs j hbefore

theorem StoredThroughCursor.frame_eq {f : Frame} {s : State} (hs : StoredThroughCursor f s)
    (h : s.cursor.val = 58) : s.frame = f := by
  ext i hi
  exact hs ⟨i, hi⟩ (Fin.le_def.2 (by simp only; omega))

/-- With `f` stored up to the cursor, feeding the remaining bits stores the rest of it. -/
theorem execAll_feedRest (f : Frame) (rest : List Bool) (s : State) (hs : StoredThroughCursor f s)
    (hrest : f.toList.drop (s.cursor.val + 1) = rest) :
    execAll (rest.flatMap fun b => [.secondMark, bitEvent b]) s = .next { s with frame := f, cursor := 58 } := by
  induction rest generalizing s with
  | nil =>
    have hle := List.drop_eq_nil_iff.1 hrest
    have h58 : s.cursor.val = 58 := by rw [Vector.length_toList] at hle; omega
    have hcur : s.cursor = 58 := Fin.ext h58
    exact congrArg Host.Outcome.next (State.eq_of_fields rfl rfl (hs.frame_eq h58) hcur rfl rfl rfl)
  | cons b rest ih =>
    have hlt : s.cursor.val + 1 < f.toList.length := by
      by_contra hle
      rw [List.drop_eq_nil_of_le (not_lt.1 hle)] at hrest
      cases hrest
    rw [List.drop_eq_getElem_cons hlt, List.cons.injEq] at hrest
    rw [Vector.length_toList] at hlt
    obtain ⟨rfl, hrest⟩ := hrest
    rw [List.flatMap_cons, List.cons_append, execAll_cons _ (exec_secondMark_of_lt s ⟨_, hlt⟩ rfl),
      List.cons_append, List.nil_append, execAll_cons _ (exec_bitEvent _ _)]
    exact ih _ (hs.succ rfl) hrest

/-- A feed is the first bit and the feed of the others. -/
theorem feed_eq (f : Frame) :
    feed f = bitEvent f[0] :: (f.toList.drop 1).flatMap fun b => [.secondMark, bitEvent b] := by
  have hcons : f.toList = f[0] :: f.toList.drop 1 := by
    conv_lhs => rw [← List.drop_zero (l := f.toList), List.drop_eq_getElem_cons (by simp)]
    simp
  rw [feed, hcons]
  rfl

theorem execAll_feed (f : Frame) {s : State} (h : s.cursor = 0) :
    execAll (feed f) s = .next { s with frame := f, cursor := 58 } := by
  rw [feed_eq, execAll_cons _ (exec_bitEvent _ _)]
  exact execAll_feedRest f _ (writeSlot f[0] s) (storedThroughCursor_first f h) (by simp [h])

/-! ## The obligations -/

/-- Settles O23: what `complete` does, by whether the frame passes. -/
theorem completionCommitsOrDiscards : Obligations.CompletionCommitsOrDiscards :=
  fun _ s => ⟨fun _ => frame_of_passes s, frame_of_not_passes s⟩

/-- Settles O7: premature away from the last slot; there a minute mark is FRAME on the buffer, which O23 settles. -/
theorem minuteMarkEndsTheFrame : Obligations.MinuteMarkEndsTheFrame := by
  intro s
  obtain ⟨commits, discards⟩ := completionCommitsOrDiscards s.frame s
  refine ⟨fun h => ?_, fun h d hp hd => ?_, fun h hp => ?_, minuteMark_of_max⟩
  · exact eventRow_of_process (ev := .minuteMark) (processMinuteMark_of_ne s h)
  · obtain ⟨hx, ho⟩ := minuteMark_of_max h
    rw [hx, ho]
    exact commits d hp hd
  · obtain ⟨hx, ho⟩ := minuteMark_of_max h
    rw [hx, ho]
    exact discards hp

/-- Settles O30: the strobe of a tick is its label against the commit. -/
theorem commitStrobeAtATick : Obligations.CommitStrobeAtATick := by
  intro s level ts rest h
  rw [commitStrobe_tick h, ← tick_eq_commit]
  simp

/-- Settles O36: the step is `Process` of the minute mark, which rewinds the cursor and clears the flag exactly
at a commit. -/
theorem minuteMarkRewindsTheCursor : Obligations.MinuteMarkRewindsTheCursor := by
  intro s hev
  obtain ⟨s1, ho, hs⟩ := step_of_event hev
  refine ⟨_, hs, process_minuteMark_cursor s1, ?_⟩
  rw [ho, Option.some.injEq]
  exact process_minuteMark_healthFlag s1

/-- Settles O41: `58 - c` second marks reach the last slot, and the next one overflows. -/
theorem overflowAtTheFiftyNinth : Obligations.OverflowAtTheFiftyNinth := by
  intro s
  refine ⟨fun n c => execAll_secondMarks n s c, ?_⟩
  have hreach : 58 = s.cursor.val + (58 - s.cursor.val) := by omega
  have hsplit : 59 - s.cursor.val = (58 - s.cursor.val) + 1 := by omega
  rw [hsplit, List.replicate_succ', execAll_append _ _ s _ (execAll_secondMarks _ s 58 hreach)]
  exact execAll_singleton (exec_secondMark_of_max rfl)

/-- Settles O42: the first bit at cursor 0, and by induction over the remaining bits one more slot each. -/
theorem feedingStoresTheFrame : Obligations.FeedingStoresTheFrame :=
  fun f _ => execAll_feed f

/-- Settles O43: the first minute mark rewinds the cursor whatever the state holds, the feed (O42) stores `f`, and
the second finds it at the last slot (O7). -/
theorem recoversAtTheSecondMinuteMark : Obligations.RecoversAtTheSecondMinuteMark := by
  intro f s d hp hd
  have hmark : exec .minuteMark s = .next (process .minuteMark s).2 := rfl
  rw [execAll_cons _ hmark, execAll_append _ _ _ _ (execAll_feed f (process_minuteMark_cursor s))]
  obtain ⟨-, commits, -⟩ := minuteMarkEndsTheFrame { (process .minuteMark s).2 with frame := f, cursor := 58 }
  obtain ⟨hlevel, href, hstim⟩ := process_sampler .minuteMark s
  rw [execAll_singleton (commits rfl d hp hd).1]
  exact congrArg Host.Outcome.next (State.eq_of_fields hlevel href rfl rfl rfl rfl hstim)

/-- Settles O4: `Process` of `NoEvent` is the state as it was. -/
theorem noEventChangesNothing : Obligations.NoEventChangesNothing :=
  fun _ => eventRow_of_process (ev := .noEvent) rfl

/-- Settles O5: the two cases of R102, below the last slot and at it. -/
theorem secondMarkAdvancesOrOverflows : Obligations.SecondMarkAdvancesOrOverflows :=
  fun s => ⟨fun c hc => eventRow_of_process (ev := .secondMark) (processSecondMark_of_lt s c hc),
    fun h => eventRow_of_process (ev := .secondMark) (processSecondMark_of_max s h)⟩

/-- Settles O6: both rows are the one store of the hardware. -/
theorem bitEventsWriteTheCursorSlot : Obligations.BitEventsWriteTheCursorSlot :=
  fun s => ⟨⟨_, exec_bitEvent false s, slotWritten_of_writeSlot s false _ rfl, rfl, rfl⟩,
    ⟨_, exec_bitEvent true s, slotWritten_of_writeSlot s true _ rfl, rfl, rfl⟩⟩

/-- Settles O8: `Process` of `Invalid` raises the flag. -/
theorem invalidRaisesTheFlagOnly : Obligations.InvalidRaisesTheFlagOnly :=
  fun _ => eventRow_of_process (ev := .invalid) rfl

end Sys2Proof.Machine
end

section
/-! SUPPORT. Proofs of the family 42_parity_validator: a FRAME59 unit by what its check tests, the three parity checks as counts of ones, and completion of a frame with an odd group. -/

namespace Sys2Proof.Machine

/-! ## A unit on its own -/

/-- A unit passes or discards by the one condition its check tests (R107). -/
theorem unit_of_check {i : Instr} {s : State} {check : Option TickOutcome} {passes : Prop} [Decidable passes]
    {e : TickOutcome} (hx : exec i s = .next (runCheck check s).2) (ho : outcomeOf i s = some (runCheck check s).1)
    (hc : check = if passes then none else some e) :
    exec i s = .next (if passes then s else discarded s) ∧ outcomeOf i s = some (if passes then .okNone else e) := by
  rw [hx, ho, hc]
  by_cases hp : passes
  · simp only [if_pos hp, runCheck, and_self]
  · simp only [if_neg hp]
    exact ⟨rfl, rfl⟩

/-! ## The three parity checks -/

/-- A check on a parity tree is a check on the count of ones (R120). -/
theorem parityCheck_eq_ite (f : Frame) {a b : Nat} (h : a ≤ b + 1) (e : TickOutcome) :
    (if parity f a b then some e else none) = if ones f a b % 2 = 0 then none else some e := by
  by_cases hp : parity f a b
  · rw [if_pos hp, if_neg (by rw [← parity_eq_false f a b h, hp]; decide)]
  · rw [if_neg hp, if_pos ((parity_eq_false f a b h).1 (Bool.eq_false_of_not_eq_true hp))]

theorem checkParityMinute_eq_ite (f : Frame) :
    checkParityMinute f = if ones f 21 28 % 2 = 0 then none else some .parityErrorMinute :=
  parityCheck_eq_ite f (by decide) _

theorem checkParityHour_eq_ite (f : Frame) :
    checkParityHour f = if ones f 29 35 % 2 = 0 then none else some .parityErrorHour :=
  parityCheck_eq_ite f (by decide) _

theorem checkParityDate_eq_ite (f : Frame) :
    checkParityDate f = if ones f 36 58 % 2 = 0 then none else some .parityErrorDate :=
  parityCheck_eq_ite f (by decide) _

/-! ## A frame with an odd group -/

/-- The first odd group names the failure, before any range check is asked (R124). -/
theorem firstFailure_of_not_parityGood {f : Frame} (h : ¬ ParityGood f) :
    firstFailure f = some .parityErrorMinute ∨ firstFailure f = some .parityErrorHour ∨
      firstFailure f = some .parityErrorDate := by
  rw [firstFailure, checkParityMinute_eq_ite, checkParityHour_eq_ite, checkParityDate_eq_ite]
  by_cases hm : ones f 21 28 % 2 = 0
  · by_cases hh : ones f 29 35 % 2 = 0
    · have hd : ¬ ones f 36 58 % 2 = 0 := fun hd => h ⟨hm, hh, hd⟩
      rw [if_pos hm, if_pos hh, if_neg hd]
      exact .inr (.inr rfl)
    · rw [if_pos hm, if_neg hh]
      exact .inr (.inl rfl)
  · rw [if_neg hm]
    exact .inl rfl

theorem frame_of_firstFailure {f : Frame} {e : TickOutcome} (s : State) (h : firstFailure f = some e) :
    exec (.frame f) s = .next (discarded s) ∧ outcomeOf (.frame f) s = some e :=
  frame_of_complete (complete_of_fail f s e h)

/-- Each slot from 21 on lies in one of the three groups, and a flip makes that group odd (R124). -/
theorem not_parityGood_flip {f : Frame} {i : Fin 59} (h : ParityGood f) (hi : 21 ≤ i.val) :
    ¬ ParityGood (f.set i.val (!f[i]) i.isLt) := by
  obtain ⟨hm, hh, hd⟩ := h
  rintro ⟨hm', hh', hd'⟩
  have hgroup : i.val ≤ 28 ∨ (29 ≤ i.val ∧ i.val ≤ 35) ∨ (36 ≤ i.val ∧ i.val ≤ 58) := by omega
  obtain hle | hin | hin := hgroup
  · exact ones_flip f i 21 28 ⟨hi, hle⟩ (hm'.trans hm.symm)
  · exact ones_flip f i 29 35 hin (hh'.trans hh.symm)
  · exact ones_flip f i 36 58 hin (hd'.trans hd.symm)

/-! ## The obligations -/

/-- Settles O21: each parity row is its check, and the check counts the ones of its group. -/
theorem parityUnitsCountOnes : Obligations.ParityUnitsCountOnes :=
  fun f _ => ⟨unit_of_check rfl rfl (checkParityMinute_eq_ite f), unit_of_check rfl rfl (checkParityHour_eq_ite f),
    unit_of_check rfl rfl (checkParityDate_eq_ite f)⟩

/-- Settles O26: the flip leaves an odd group, and the first odd group is the first failure. -/
theorem singleFlipIsRejected : Obligations.SingleFlipIsRejected := by
  intro f i s hgood hi
  obtain hf | hf | hf := firstFailure_of_not_parityGood (not_parityGood_flip hgood hi)
  · obtain ⟨hx, ho⟩ := frame_of_firstFailure s hf
    exact ⟨hx, .inl ho⟩
  · obtain ⟨hx, ho⟩ := frame_of_firstFailure s hf
    exact ⟨hx, .inr (.inl ho)⟩
  · obtain ⟨hx, ho⟩ := frame_of_firstFailure s hf
    exact ⟨hx, .inr (.inr ho)⟩

end Sys2Proof.Machine
end

section
/-! SUPPORT. Proofs of the family 43_field_decoder: the six range checks in the claims' sums, the canonical frame read segment by segment, and a step that shows the commit strobe. -/

namespace Sys2Proof.Machine

/-! ## The six range checks -/

/-- A check that fails exactly outside a condition is a check on that condition. -/
theorem check_eq_ite {fails passes : Prop} [Decidable fails] [Decidable passes] (e : TickOutcome)
    (h : fails ↔ ¬ passes) : (if fails then some e else none) = if passes then none else some e := by
  by_cases hp : passes
  · rw [if_pos hp, if_neg (fun hf => h.1 hf hp)]
  · rw [if_neg hp, if_pos (h.2 hp)]

theorem checkMinute_eq_ite (f : Frame) :
    checkMinute f = if specMinute f ≤ 59 then none else some .rangeErrorMinute :=
  check_eq_ite _ (by rw [minuteOf_eq_spec]; omega)

theorem checkHour_eq_ite (f : Frame) : checkHour f = if specHour f ≤ 23 then none else some .rangeErrorHour :=
  check_eq_ite _ (by rw [hourOf_eq_spec]; omega)

theorem checkDay_eq_ite (f : Frame) :
    checkDay f = if 1 ≤ specDay f ∧ specDay f ≤ 31 then none else some .rangeErrorDay :=
  check_eq_ite _ (by rw [dayOf_eq_spec]; omega)

theorem checkWeekday_eq_ite (f : Frame) :
    checkWeekday f = if 1 ≤ specWeekday f ∧ specWeekday f ≤ 7 then none else some .rangeErrorWeekday :=
  check_eq_ite _ (by rw [weekdayOf_eq_spec]; omega)

theorem checkMonth_eq_ite (f : Frame) :
    checkMonth f = if 1 ≤ specMonth f ∧ specMonth f ≤ 12 then none else some .rangeErrorMonth :=
  check_eq_ite _ (by rw [monthOf_eq_spec]; omega)

theorem checkYear_eq_ite (f : Frame) : checkYear f = if specYear f ≤ 2099 then none else some .rangeErrorYear :=
  check_eq_ite _ (by rw [yearOf_eq_spec]; omega)

/-! ## Reads of a frame by segments -/

/-- A segment of what a read gives is itself a read. -/
theorem memRead_segment {f : Frame} {a n a' n' : Nat} {slots l m r : List Bool} (h : memRead f a n = slots)
    (hs : slots = l ++ (m ++ r)) (ha : a + l.length = a') (hn : m.length = n') : memRead f a' n' = m := by
  subst hs
  have hle : (l ++ (m ++ r)).length ≤ n := by rw [← h, memRead]; exact List.length_take_le _ _
  rw [List.length_append, List.length_append] at hle
  have hsub : memRead f a' n' = ((memRead f a n).drop l.length).take n' := by
    rw [memRead, memRead, ← ha, List.drop_take, List.drop_drop, List.take_take, Nat.min_eq_left (by omega)]
  rw [hsub, h]
  exact take_drop_segment l m r _ _ rfl hn

/-- A group of slots with the parity bit that makes it even (R73). -/
def parityGroup (l : List Bool) : List Bool := l ++ [parityBit l]

theorem parityGroup_length (l : List Bool) : (parityGroup l).length = l.length + 1 := List.length_append

/-- A group that ends in its parity bit holds an even number of ones (R73, R120). -/
theorem ones_even_of_parityGroup {f : Frame} {a b : Nat} {l : List Bool} (hab : a ≤ b + 1)
    (h : memRead f a (b + 1 - a) = parityGroup l) : ones f a b % 2 = 0 := by
  rw [← parity_eq_false f a b hab, parity, h, parityGroup, parity_self]

/-- The slots of a group are its segment before the parity bit. -/
theorem memRead_of_parityGroup {f : Frame} {a n : Nat} {l : List Bool} (h : memRead f a (n + 1) = parityGroup l)
    (hn : l.length = n) : memRead f a n = l :=
  memRead_segment (l := []) h rfl rfl hn

theorem fieldSum_of_memRead {f : Frame} {lo v : Nat} {ws : List Nat} {slots : List Bool}
    (hread : memRead f lo ws.length = slots) (hsum : ((ws.zip slots).map (fun p => p.1 * p.2.toNat)).sum = v) :
    fieldSum f lo ws = v := by
  rw [fieldSum, hread, hsum]

/-! ## The canonical frame -/

/-- The slots of the date group, 36 to 57, without their parity bit (R68). -/
def dateSlots (t : DecodedTime) : List Bool :=
  bcdSlots 6 t.day.toNat ++ (bcdSlots 3 t.weekday.toNat ++ (bcdSlots 5 t.month.toNat ++
    bcdSlots 8 (t.year.toNat - Config.YEAR_BASE)))

theorem dateSlots_length (t : DecodedTime) : (dateSlots t).length = 22 := by
  simp [dateSlots, bcdSlots_length]

/-- The canonical slots are the three parity groups (R68, R73). -/
theorem canonicalSlots_eq (t : DecodedTime) : canonicalSlots t =
    parityGroup (bcdSlots 7 t.minute.toNat) ++ (parityGroup (bcdSlots 6 t.hour.toNat) ++ parityGroup (dateSlots t)) := by
  simp only [canonicalSlots, parityGroup, dateSlots, List.append_assoc]

section
variable (low : Frame) (t : DecodedTime)

theorem canonicalFrame_slots : memRead (canonicalFrame low t) 21 38 = canonicalSlots t := by
  rw [memRead_canonicalFrame low t 21 38 (by decide) (by decide), ← canonicalSlots_length t]
  exact List.take_length

theorem canonicalFrame_minuteGroup :
    memRead (canonicalFrame low t) 21 8 = parityGroup (bcdSlots 7 t.minute.toNat) :=
  memRead_segment (canonicalFrame_slots low t) (l := []) (canonicalSlots_eq t) rfl
    (by rw [parityGroup_length, bcdSlots_length])

theorem canonicalFrame_hourGroup :
    memRead (canonicalFrame low t) 29 7 = parityGroup (bcdSlots 6 t.hour.toNat) :=
  memRead_segment (canonicalFrame_slots low t) (canonicalSlots_eq t)
    (by rw [parityGroup_length, bcdSlots_length]) (by rw [parityGroup_length, bcdSlots_length])

theorem canonicalFrame_dateGroup : memRead (canonicalFrame low t) 36 23 = parityGroup (dateSlots t) :=
  memRead_segment (canonicalFrame_slots low t) (r := [])
    (l := parityGroup (bcdSlots 7 t.minute.toNat) ++ parityGroup (bcdSlots 6 t.hour.toNat))
    (by rw [canonicalSlots_eq, List.append_assoc, List.append_nil])
    (by rw [List.length_append, parityGroup_length, parityGroup_length, bcdSlots_length, bcdSlots_length])
    (by rw [parityGroup_length, dateSlots_length])

theorem canonicalFrame_parityGood : ParityGood (canonicalFrame low t) where
  minute := ones_even_of_parityGroup (by decide) (canonicalFrame_minuteGroup low t)
  hour := ones_even_of_parityGroup (by decide) (canonicalFrame_hourGroup low t)
  date := ones_even_of_parityGroup (by decide) (canonicalFrame_dateGroup low t)

theorem canonicalFrame_minute : memRead (canonicalFrame low t) 21 7 = bcdSlots 7 t.minute.toNat :=
  memRead_of_parityGroup (canonicalFrame_minuteGroup low t) (bcdSlots_length _ _)

theorem canonicalFrame_hour : memRead (canonicalFrame low t) 29 6 = bcdSlots 6 t.hour.toNat :=
  memRead_of_parityGroup (canonicalFrame_hourGroup low t) (bcdSlots_length _ _)

theorem canonicalFrame_date : memRead (canonicalFrame low t) 36 22 = dateSlots t :=
  memRead_of_parityGroup (canonicalFrame_dateGroup low t) (dateSlots_length t)

theorem canonicalFrame_day : memRead (canonicalFrame low t) 36 6 = bcdSlots 6 t.day.toNat :=
  memRead_segment (canonicalFrame_date low t) (l := []) rfl rfl (bcdSlots_length _ _)

theorem canonicalFrame_weekday : memRead (canonicalFrame low t) 42 3 = bcdSlots 3 t.weekday.toNat :=
  memRead_segment (canonicalFrame_date low t) (l := bcdSlots 6 t.day.toNat) rfl
    (by rw [bcdSlots_length]) (bcdSlots_length _ _)

theorem canonicalFrame_month : memRead (canonicalFrame low t) 45 5 = bcdSlots 5 t.month.toNat :=
  memRead_segment (canonicalFrame_date low t) (l := bcdSlots 6 t.day.toNat ++ bcdSlots 3 t.weekday.toNat)
    (by rw [dateSlots, List.append_assoc]) (by rw [List.length_append, bcdSlots_length, bcdSlots_length])
    (bcdSlots_length _ _)

theorem canonicalFrame_year :
    memRead (canonicalFrame low t) 50 8 = bcdSlots 8 (t.year.toNat - Config.YEAR_BASE) :=
  memRead_segment (canonicalFrame_date low t) (r := [])
    (l := bcdSlots 6 t.day.toNat ++ bcdSlots 3 t.weekday.toNat ++ bcdSlots 5 t.month.toNat)
    (by simp only [dateSlots, List.append_assoc, List.append_nil]) (by simp only [List.length_append, bcdSlots_length])
    (bcdSlots_length _ _)

/-- The canonical frame of a time in range spells it: each field's weighted sum gives its value back (R73). -/
theorem canonicalFrame_spells (h : inRange t = true) : Spells (canonicalFrame low t) t := by
  obtain ⟨⟨hy, _⟩, ⟨-, hmo⟩, ⟨-, hd⟩, ⟨-, hw⟩, hh, hmi⟩ := (inRange_iff t).1 h
  obtain ⟨sum7, sum6, sum3, sum5, sum8⟩ := weightedSum_bcdSlots
  constructor
  case minute =>
    rw [← minuteOf_eq_spec, eq_comm]
    exact fieldSum_of_memRead (canonicalFrame_minute low t) (sum7 _ (by omega))
  case hour =>
    rw [← hourOf_eq_spec, eq_comm]
    exact fieldSum_of_memRead (canonicalFrame_hour low t) (sum6 _ (by omega))
  case day =>
    rw [← dayOf_eq_spec, eq_comm]
    exact fieldSum_of_memRead (canonicalFrame_day low t) (sum6 _ (by omega))
  case weekday =>
    rw [← weekdayOf_eq_spec, eq_comm]
    exact fieldSum_of_memRead (canonicalFrame_weekday low t) (sum3 _ (by omega))
  case month =>
    rw [← monthOf_eq_spec, eq_comm]
    exact fieldSum_of_memRead (canonicalFrame_month low t) (sum5 _ (by omega))
  case year =>
    have hsum : fieldSum (canonicalFrame low t) 50 [1, 2, 4, 8, 10, 20, 40, 80] = t.year.toNat - Config.YEAR_BASE :=
      fieldSum_of_memRead (canonicalFrame_year low t) (sum8 _ (by simp only [Config.YEAR_BASE]; omega))
    rw [← yearOf_eq_spec, yearOf, hsum]
    exact (Nat.sub_add_cancel hy).symm

end

/-- A parity-good frame that spells a time in range passes all nine checks. -/
theorem Passes.of_spells {f : Frame} {t : DecodedTime} (hp : ParityGood f) (hs : Spells f t)
    (h : inRange t = true) : Passes f := by
  rw [inRange_iff, hs.minute, hs.hour, hs.day, hs.weekday, hs.month, hs.year] at h
  obtain ⟨⟨-, hy⟩, hmo, hd, hw, hh, hmi⟩ := h
  exact ⟨hp, hmi, hh, hd, hw, hmo, hy⟩

/-! ## A step that shows the commit strobe -/

/-- A frame word is fetched from the frame buffer (R43). -/
theorem fetch_frameWord {s : State} {u : FrameUnit} {b : Nat} (h : fetch s = .word ⟨.frame59 u, b⟩) :
    s.frame.toBits = b := by
  unfold fetch at h
  split at h <;> cases h
  rfl

/-- A FRAME row that a step decodes has the frame buffer as its operand. -/
theorem frameOperand_eq_buffer {s : State} {w : OpWord} {f : Frame} (hw : fetch s = .word w)
    (hd : decode w = .ok (.frame f)) : f = s.frame := by
  obtain ⟨-, rfl, -⟩ := decode_ok hd
  rw [← ofBits_toBits f, ← fetch_frameWord hw, ofBits_toBits]

/-- An operation that commits loads a passing frame: a FRAME row's operand, or else the buffer. -/
theorem exec_of_commit {i : Instr} {s : State} (h : outcomeOf i s = some .commit) :
    ∃ f s1, (i = .frame f ∨ f = s.frame) ∧ Passes f ∧ s1.frame = s.frame ∧
      exec i s = .next (committed (decodedOf f) s1) := by
  obtain ⟨c, rfl | rfl, _⟩ | ⟨ev, s1, _, hs, ho, hx⟩ | ⟨_, ho, _⟩ | ⟨_, e, he, ho, _⟩ | ⟨f, hi, hp, _, hx⟩ :=
    exec_cases i s
  · cases h
  · cases h
  · obtain ⟨rfl, h58, hp⟩ := (process_eq_commit ev s1).1 (Option.some.inj (ho.symm.trans h))
    have hc := complete_of_passes s1 hp (spells_decodedOf _ hp)
    refine ⟨s1.frame, s1, .inr hs.frame, hp, hs.frame, ?_⟩
    rw [hx, process, processMinuteMark_of_max s1 h58, hc]
  · cases ho.symm.trans h
  · exact absurd (Option.some.inj (ho.symm.trans h)) (number_ne_commit (by omega))
  · exact ⟨f, s, .inl hi, hp, rfl, hx⟩

/-- The strobe is shown only by a step that runs an operation whose label is the commit (R138, R190). -/
theorem step_of_commitStrobe {s : State} (h : commitStrobe s = some true) :
    ∃ w i, fetch s = .word w ∧ decode w = .ok i ∧ outcomeOf i (consume s) = some .commit ∧
      step s = exec i (consume s) := by
  obtain ⟨hf, _⟩ | ⟨hf, _⟩ | ⟨w, i, hf, hd, hn, hs⟩ | ⟨w, e, hf, hd, _⟩ := step_cases s
  · simp [commitStrobe, hf] at h
  · simp [commitStrobe, hf] at h
  · rw [commitStrobe_eq s i w hf hn] at h
    exact ⟨w, i, hf, hd, by simpa [outcomeOf_consume] using h, hs⟩
  · simp [commitStrobe, nextOutcome, nextInstr, hf, hd, Except.toOption] at h

/-! ## The obligations -/

/-- Settles O28: the canonical frame has even groups and spells the time, so it passes and commits that time. -/
theorem canonicalFrameRoundTrip : Obligations.CanonicalFrameRoundTrip := by
  intro low t s h
  have hs := canonicalFrame_spells low t h
  have hp := Passes.of_spells (canonicalFrame_parityGood low t) hs h
  exact (frame_of_passes s hp hs).1

/-- Settles O22: each field row is its check, and the check is the range of the weighted sum. -/
theorem fieldUnitsCheckTheirRange : Obligations.FieldUnitsCheckTheirRange :=
  fun f _ => ⟨unit_of_check rfl rfl (checkMinute_eq_ite f), unit_of_check rfl rfl (checkHour_eq_ite f),
    unit_of_check rfl rfl (checkDay_eq_ite f), unit_of_check rfl rfl (checkWeekday_eq_ite f),
    unit_of_check rfl rfl (checkMonth_eq_ite f), unit_of_check rfl rfl (checkYear_eq_ite f)⟩

/-- Settles O29: the committing operation's frame is the buffer, as a FRAME row's word is fetched from it. -/
theorem commitStrobeMeansCommit : Obligations.CommitStrobeMeansCommit := by
  intro s h
  obtain ⟨w, i, hw, hd, ho, hstep⟩ := step_of_commitStrobe h
  obtain ⟨f, s1, hf, hp, hframe, hx⟩ := exec_of_commit ho
  have hbuf : f = s.frame := by
    obtain rfl | hf := hf
    · exact frameOperand_eq_buffer hw hd
    · exact hf
  subst hbuf
  exact ⟨hp, _, hstep.trans hx, spells_decodedOf _ hp, rfl, rfl, hframe⟩

end Sys2Proof.Machine
end

section
/-! SUPPORT. Proofs of the family 44_timezone_projector: `Project` by its branches, the date one day back as a predicate, and the calendar's day number across it. -/

namespace Sys2Proof.Machine

/-! ## `Project` by its branches -/

section
variable {t : DecodedTime}

/-- From hour 6 on, only the hour moves (R152). -/
theorem project_of_noBorrow (h : inRange t = true) (h6 : 6 ≤ t.hour.toNat) :
    project t = { t with hour := t.hour - 6 } := by
  rw [project_eq t h, projectInRange, if_pos h6]

/-- Before hour 6 the projection is the day before, at the hour plus 18 (R153). -/
theorem project_of_borrow (h : inRange t = true) (h6 : t.hour.toNat < 6) :
    project t = { dayBefore t with hour := t.hour + 18 } := by
  rw [project_eq t h, projectInRange, if_neg (Nat.not_le.2 h6)]

/-- A day of at least 2 leaves month and year alone (R154). -/
theorem dayBefore_of_two_le_day (hd : 2 ≤ t.day.toNat) :
    dayBefore t = { t with weekday := weekdayBefore t.weekday, day := t.day - 1 } := by
  rw [dayBefore, if_pos hd]

/-- January 1 rolls back to December 31 (R156). -/
theorem dayBefore_of_january (hd : t.day.toNat = 1) (hm : t.month.toNat = 1) :
    dayBefore t = { t with weekday := weekdayBefore t.weekday, day := 31, month := 12, year := t.year - 1 } := by
  rw [dayBefore, if_neg (show ¬ 2 ≤ t.day.toNat by omega), if_pos (BitVec.eq_of_toNat_eq hm)]

theorem toNat_sub_one {w : Nat} {x : BitVec (w + 1)} (h : 1 ≤ x.toNat) : (x - 1).toNat = x.toNat - 1 := by
  have hone : (1 : BitVec (w + 1)).toNat = 1 := BitVec.toNat_one (Nat.succ_pos w)
  rw [BitVec.toNat_sub_of_le (BitVec.le_def.2 (hone.symm ▸ h)), hone]

/-- Only the length of February depends on the year. -/
theorem monthLength_of_ne_february (y y' : Nat) {m : Nat} (hm : m ≠ 2) : monthLength y m = monthLength y' m := by
  rw [monthLength, monthLength, if_neg hm, if_neg hm]

theorem one_le_monthLength (y m : Nat) : 1 ≤ monthLength y m := by
  unfold monthLength
  split_ifs <;> decide

/-- Day 1 of a month from 2 to 12 rolls back to the last day of the month before, February included
(R155, R157, R158). -/
theorem dayBefore_of_laterMonth (hd : t.day.toNat = 1) (hm : 2 ≤ t.month.toNat) (hm' : t.month.toNat ≤ 12) :
    ∃ d : BitVec 5, d.toNat = monthLength t.year.toNat (t.month.toNat - 1) ∧
      dayBefore t = { t with weekday := weekdayBefore t.weekday, day := d, month := t.month - 1 } := by
  have hd1 : ¬ 2 ≤ t.day.toNat := by omega
  have h1 : t.month ≠ 1 := fun h => by rw [h] at hm; exact absurd hm (by decide)
  by_cases h3 : t.month = 3
  · refine ⟨if leap t.year.toNat then 29 else 28, ?_, ?_⟩
    · rw [h3, monthLength]
      split <;> rfl
    · rw [dayBefore, if_neg hd1, if_neg h1, if_pos h3, h3]
      rfl
  · have h2 : t.month.toNat - 1 ≠ 2 := fun h => h3 (BitVec.eq_of_toNat_eq (show t.month.toNat = 3 by omega))
    obtain ⟨d, hlook, hlen⟩ := daysIn_some (t.month.toNat - 1) (by omega) (by omega) h2
    refine ⟨d, hlen.trans (monthLength_of_ne_february _ _ h2), ?_⟩
    rw [dayBefore, if_neg hd1, if_neg h1, if_neg h3]
    simp only [hlook]

/-! ## The date one day back, on numerals -/

/-- The date of `u` is the day before that of `t`: within the month, across a month's start, or across the
year's. -/
inductive DateBack (t u : CivilTime) : Prop
  | sameMonth (from_day : 2 ≤ t.day.toNat) (day : u.day.toNat = t.day.toNat - 1) (month : u.month = t.month)
      (year : u.year = t.year)
  | monthBefore (from_day : t.day.toNat = 1) (from_month : 2 ≤ t.month.toNat)
      (day : u.day.toNat = monthLength t.year.toNat (t.month.toNat - 1))
      (month : u.month.toNat = t.month.toNat - 1) (year : u.year = t.year)
  | yearBefore (from_day : t.day.toNat = 1) (from_month : t.month.toNat = 1) (day : u.day.toNat = 31)
      (month : u.month.toNat = 12) (year : u.year.toNat = t.year.toNat - 1)

/-- A date does not read the hour. -/
theorem DateBack.of_hour {u : CivilTime} (h : DateBack t u) (hour : BitVec 5) : DateBack t { u with hour := hour } := by
  cases h with
  | sameMonth hd day month year => exact .sameMonth hd day month year
  | monthBefore hd hm day month year => exact .monthBefore hd hm day month year
  | yearBefore hd hm day month year => exact .yearBefore hd hm day month year

/-- Within the legal ranges `dayBefore` moves date and weekday one day back and keeps the minute, whether or not
the day exists on the calendar. -/
theorem dayBefore_spec (h : inRange t = true) : DateBack t (dayBefore t) ∧
    (dayBefore t).weekday = weekdayBefore t.weekday ∧ (dayBefore t).minute = t.minute := by
  obtain ⟨⟨hy, -⟩, ⟨hm, hm'⟩, ⟨hd, -⟩, -⟩ := (inRange_iff t).1 h
  obtain hd | hd : 2 ≤ t.day.toNat ∨ t.day.toNat = 1 := by omega
  · rw [dayBefore_of_two_le_day hd]
    exact ⟨.sameMonth hd (toNat_sub_one (Nat.le_of_succ_le hd)) rfl rfl, rfl, rfl⟩
  · obtain hm1 | hm2 : t.month.toNat = 1 ∨ 2 ≤ t.month.toNat := by omega
    · rw [dayBefore_of_january hd hm1]
      exact ⟨.yearBefore hd hm1 rfl rfl (toNat_sub_one (Nat.le_trans (by decide) hy)), rfl, rfl⟩
    · obtain ⟨d, hlen, hback⟩ := dayBefore_of_laterMonth hd hm2 hm'
      rw [hback]
      exact ⟨.monthBefore hd hm2 hlen (toNat_sub_one hm) rfl, rfl, rfl⟩

/-- `u` is the projection of `t` by a borrow (R153): the date and the weekday one day back, the hour 18 more. -/
structure Borrowed (t u : CivilTime) : Prop where
  date : DateBack t u
  weekday : u.weekday.toNat = if t.weekday.toNat = 1 then 7 else t.weekday.toNat - 1
  hour : u.hour.toNat = t.hour.toNat + 18
  minute : u.minute = t.minute

/-- Before hour 6 `Project` borrows. -/
theorem borrowed_project (h : inRange t = true) (h6 : t.hour.toNat < 6) : Borrowed t (project t) := by
  obtain ⟨hdate, hweekday, hminute⟩ := dayBefore_spec h
  obtain ⟨-, -, -, ⟨hw, -⟩, -⟩ := (inRange_iff t).1 h
  rw [project_of_borrow h h6]
  exact {
    date := hdate.of_hour _
    weekday := hweekday ▸ weekdayBefore_toNat t.weekday hw
    hour := BitVec.toNat_add_of_lt (show t.hour.toNat + 18 < 2 ^ 5 by omega)
    minute := hminute }

theorem toNat_hour_sub_six (h6 : 6 ≤ t.hour.toNat) : (t.hour - 6).toNat = t.hour.toNat - 6 :=
  BitVec.toNat_sub_of_le (BitVec.le_def.2 h6)

end

/-! ## The calendar across one day -/

/-- The day before a day of the calendar is a day of the calendar. -/
theorem DateBack.onCalendar {t u : CivilTime} (h : DateBack t u) (ht : onCalendar t) : onCalendar u := by
  obtain ⟨-, hlast⟩ := ht
  cases h with
  | sameMonth hd day month year =>
    rw [Machine.onCalendar, day, month, year]
    omega
  | monthBefore hd hm day month year =>
    rw [Machine.onCalendar, day, month, year]
    exact ⟨one_le_monthLength _ _, le_rfl⟩
  | yearBefore hd hm day month year =>
    rw [Machine.onCalendar, day, month]
    exact ⟨by decide, by simp [monthLength]⟩

/-- The leap-year expression as inclusion and exclusion of the multiples of 4, 100 and 400. -/
theorem leapDay_count (y : Nat) : (if leap y then 1 else 0) + (if 100 ∣ y then 1 else 0) =
    (if 4 ∣ y then 1 else 0) + if 400 ∣ y then 1 else 0 := by
  have h100 : 100 ∣ y → 4 ∣ y := Nat.dvd_trans (by decide)
  have h400 : 400 ∣ y → 100 ∣ y := Nat.dvd_trans (by decide)
  simp only [leap_iff, ← Nat.dvd_iff_mod_eq_zero, Ne]
  by_cases d400 : 400 ∣ y
  · simp [d400, h400, h100]
  · by_cases d100 : 100 ∣ y
    · simp [d400, d100, h100]
    · simp [d400, d100]

/-- The days of the years up to `y` and those up to `y + 1`: a leap year has one day more. -/
theorem yearDays_succ (y : Nat) : 365 * (y + 1) + (y + 1) / 4 - (y + 1) / 100 + (y + 1) / 400 =
    365 * y + y / 4 - y / 100 + y / 400 + (if leap (y + 1) then 1 else 0) + 365 := by
  have hle : y / 100 ≤ y / 4 := Nat.div_le_div_left (by decide) (by decide)
  have hcount := leapDay_count (y + 1)
  have hone : (if 100 ∣ y + 1 then 1 else 0) ≤ 1 := by split <;> decide
  rw [Nat.succ_div, Nat.succ_div, Nat.succ_div]
  omega

/-- The day before has the calendar's day number one less. -/
theorem DateBack.dayNumber {t u : CivilTime} (h : DateBack t u) (hy : 2 ≤ t.year.toNat) :
    dayNumber u + 1 = dayNumber t := by
  cases h with
  | sameMonth hd day month year =>
    simp only [Machine.dayNumber, day, month, year]
    omega
  | monthBefore hd hm day month year =>
    obtain ⟨m, hm⟩ := Nat.exists_eq_add_of_le' hm
    simp only [Machine.dayNumber, hd, day, month, year, hm, Nat.add_sub_cancel, Nat.reduceSubDiff, monthLength_sum_succ]
    omega
  | yearBefore hd hm day month year =>
    obtain ⟨y, hy⟩ := Nat.exists_eq_add_of_le' hy
    simp only [Machine.dayNumber, hd, hm, day, month, year, hy, Nat.reduceSub, Nat.add_sub_cancel,
      Nat.reduceSubDiff, monthLength_sum_eleven, List.range_zero, List.map_nil, List.sum_nil, yearDays_succ]
    split <;> omega

/-- The hour number after a borrow: a day less and 18 hours more. -/
theorem Borrowed.hourNumber {t u : CivilTime} (h : Borrowed t u) (hy : 2 ≤ t.year.toNat) :
    hourNumber u + 6 = hourNumber t := by
  have hday := h.date.dayNumber hy
  rw [Machine.hourNumber, Machine.hourNumber, h.hour]
  omega

/-- The weekday before, a day on, is the weekday, counted modulo 7. -/
theorem Borrowed.weekday_add_one_mod {t u : CivilTime} (h : Borrowed t u) (hw : 1 ≤ t.weekday.toNat) :
    (u.weekday.toNat + 1) % 7 = t.weekday.toNat % 7 := by
  rw [h.weekday]
  split
  · rw [‹t.weekday.toNat = 1›]
  · rw [Nat.sub_add_cancel hw]

/-! ## The ranges of a borrowed date -/

theorem monthLength_le (y m : Nat) : monthLength y m ≤ 31 := by
  unfold monthLength
  split_ifs <;> decide

/-- The day before a date in range is in range but for the year, which can be 1999 (R161). -/
theorem DateBack.ranges {t u : CivilTime} (h : DateBack t u) (ht : inRange t = true) :
    (1999 ≤ u.year.toNat ∧ u.year.toNat ≤ 2099) ∧ (1 ≤ u.month.toNat ∧ u.month.toNat ≤ 12) ∧
      1 ≤ u.day.toNat ∧ u.day.toNat ≤ 31 := by
  obtain ⟨hy, hm, hd, -⟩ := (inRange_iff t).1 ht
  cases h with
  | sameMonth from_day day month year =>
    rw [day, month, year]
    omega
  | monthBefore from_day from_month day month year =>
    have hmin := one_le_monthLength t.year.toNat (t.month.toNat - 1)
    have hmax := monthLength_le t.year.toNat (t.month.toNat - 1)
    rw [day, month, year]
    omega
  | yearBefore from_day from_month day month year =>
    rw [day, month, year]
    omega

/-! ## The sign of the 6-bit difference, and the low bits of the year -/

/-- The 6-bit difference of an hour and 6, read as signed, is their difference (R151). -/
theorem toInt_setWidth_sub_six (x : BitVec 5) (h : x.toNat ≤ 23) :
    (BitVec.setWidth 6 x - 6#6).toInt = (x.toNat : Int) - 6 := by
  have hx : (BitVec.setWidth 6 x).toNat = x.toNat := BitVec.toNat_setWidth_of_le (by decide)
  have hpos : (BitVec.setWidth 6 x).toInt = x.toNat := by
    rw [BitVec.toInt_eq_toNat_of_lt (by rw [hx]; omega), hx]
  have hsix : (6#6).toInt = 6 := rfl
  rw [BitVec.toInt_sub, hpos, hsix]
  exact Int.bmod_eq_of_le (by omega) (by omega)

/-- The two low bits of a word are its value modulo 4. -/
theorem lowBits_eq_zero_iff {w : Nat} (x : BitVec w) : x.extractLsb' 0 2 = 0#2 ↔ x.toNat % 4 = 0 := by
  rw [← BitVec.toNat_inj, BitVec.extractLsb'_toNat, Nat.shiftRight_zero]
  rfl

/-- On the years the hardware can hold every multiple of 4 is a leap year (R159). -/
theorem leap_iff_of_range {y : Nat} (h : 2000 ≤ y) (h' : y ≤ 2099) : leap y = true ↔ y % 4 = 0 := by
  rw [leap_iff]
  omega

/-! ## The obligations -/

/-- Settles O49: the expression as the model has it; on 2000 to 2099 the only multiple of 100 is leap. -/
theorem leapYears : Obligations.LeapYears :=
  ⟨leap_iff, fun y h h' => (leap_iff_of_range h h').trans (lowBits_eq_zero_iff y).symm⟩

/-- Settles O45: without a borrow only the hour moves; with one, the date is the day before, in each of its
three shapes. -/
theorem projectionBranches : Obligations.ProjectionBranches := by
  intro t h
  constructor
  · intro h6
    rw [project_of_noBorrow h h6]
    exact ⟨toNat_hour_sub_six h6, rfl, rfl, rfl, rfl⟩
  · intro h6
    have hb := borrowed_project h h6
    refine ⟨hb.hour, hb.weekday, ?_⟩
    cases hb.date with
    | sameMonth hd day month year =>
      exact ⟨fun _ => day, fun h1 => by omega, fun h1 => by omega, fun h1 => by omega⟩
    | monthBefore hd hm day month year =>
      refine ⟨fun h2 => by omega, fun _ _ => ⟨month, year⟩, fun _ h1 => by omega, fun _ h3 => ?_⟩
      rw [h3] at day month
      exact ⟨month, year, by simp only [day, monthLength, leap_iff]; rfl⟩
    | yearBefore hd hm day month year =>
      exact ⟨fun h2 => by omega, fun _ h1 => absurd hm h1, fun _ _ => ⟨day, month, year⟩, fun _ h3 => by omega⟩

/-- Settles O46: the minute is passed through on both branches; a day of at least 2 stays in its month. -/
theorem projectionKeepsMinuteMonthYear : Obligations.ProjectionKeepsMinuteMonthYear := by
  intro t h
  refine ⟨?_, fun h6 hd => ?_⟩
  · obtain h6 | h6 := Nat.lt_or_ge t.hour.toNat 6
    · exact (borrowed_project h h6).minute
    · rw [project_of_noBorrow h h6]
  · cases (borrowed_project h h6).date with
    | sameMonth _ day month year => exact ⟨day, month, year⟩
    | monthBefore hd' => omega
    | yearBefore hd' => omega

/-- Settles O47: day 1 of a later month goes to the last day of the month before, which is not February. -/
theorem projectionOtherMonths : Obligations.ProjectionOtherMonths := by
  intro t h h6 hd hm1 hm3
  cases (borrowed_project h h6).date with
  | sameMonth hd' => omega
  | monthBefore _ _ day month year =>
    rw [monthLength, if_neg (by omega)] at day
    exact ⟨month, year, day⟩
  | yearBefore _ hm => exact absurd hm hm1

/-- Settles O48: the signed difference is hour - 6, negative exactly on the borrow. -/
theorem borrowIsTheSign : Obligations.BorrowIsTheSign := by
  intro t h localHour
  obtain ⟨-, -, -, -, hh, -⟩ := (inRange_iff t).1 h
  have hdiff : localHour = (t.hour.toNat : Int) - 6 := toInt_setWidth_sub_six t.hour hh
  refine ⟨hdiff, ?_⟩
  obtain h6 | h6 := Nat.lt_or_ge t.hour.toNat 6
  · rw [if_neg (by omega), (borrowed_project h h6).hour]
    omega
  · rw [if_pos (by omega), project_of_noBorrow h h6, toNat_hour_sub_six h6]
    omega

/-- Settles O50: without a borrow the ranges are those of the time, with one those of the day before. -/
theorem projectionRanges : Obligations.ProjectionRanges := by
  intro t h
  obtain ⟨⟨hy, hy'⟩, ⟨hm, hm'⟩, ⟨hd, hd'⟩, ⟨hw, hw'⟩, hh, hmi⟩ := (inRange_iff t).1 h
  obtain h6 | h6 := Nat.lt_or_ge t.hour.toNat 6
  · have hb := borrowed_project h h6
    obtain ⟨⟨yearMin, yearMax⟩, ⟨monthMin, monthMax⟩, dayMin, dayMax⟩ := hb.date.ranges h
    refine ⟨yearMin, yearMax, monthMin, monthMax, dayMin, dayMax, ?_, ?_, ?_, ?_⟩
    · rw [hb.weekday]; split <;> omega
    · rw [hb.weekday]; split <;> omega
    · rw [hb.hour]; omega
    · rw [hb.minute]; exact hmi
  · rw [project_of_noBorrow h h6]
    exact ⟨Nat.le_trans (by decide) hy, hy', hm, hm', hd, hd', hw, hw', by rw [toNat_hour_sub_six h6]; omega, hmi⟩

/-- Settles O51: without a borrow the date stands and the hour is 6 less; with one the day number is 1 less. -/
theorem projectionIsSixHoursBack : Obligations.ProjectionIsSixHoursBack := by
  intro t h hcal
  obtain ⟨⟨hy, -⟩, -, -, ⟨hw, -⟩, -⟩ := (inRange_iff t).1 h
  obtain h6 | h6 := Nat.lt_or_ge t.hour.toNat 6
  · have hb := borrowed_project h h6
    have hy2 : 2 ≤ t.year.toNat := Nat.le_trans (by decide) hy
    have hday := hb.date.dayNumber hy2
    refine ⟨hb.date.onCalendar hcal, hb.hourNumber hy2, hb.minute, ?_⟩
    rw [← hday, Nat.add_sub_cancel_left]
    exact hb.weekday_add_one_mod hw
  · rw [project_of_noBorrow h h6]
    have hdate : dayNumber { t with hour := t.hour - 6 } = dayNumber t := rfl
    refine ⟨hcal, ?_, rfl, ?_⟩
    · rw [hourNumber, hourNumber, hdate, toNat_hour_sub_six h6]
      omega
    · rw [hdate, Nat.sub_self, Nat.add_zero]

end Sys2Proof.Machine
end

section
/-! SUPPORT. Proofs of the family 60_exceptions: the first failing check as the label of completion, the effect table of the outcomes from `Process` through `exec` to a step, and steps on clock edges. -/

namespace Sys2Proof.Machine

/-! ## The first failing check names the label (R107, R177) -/

/-- The label of completion is the first failure, and the commit where there is none. -/
theorem complete_fst (f : Frame) (s : State) : (complete f s).1 = (firstFailure f).getD .commit := by
  unfold complete
  cases firstFailure f <;> rfl

/-- The label of one check and, where it passes, of what follows. -/
theorem check_orElse_getD {check rest : Option TickOutcome} {fails passes : Prop} [Decidable fails]
    [Decidable passes] {e o r : TickOutcome} (hc : check = if passes then none else some e)
    (hf : fails ↔ ¬ passes) (hr : rest.getD o = r) : (check <|> rest).getD o = if fails then e else r := by
  subst hc hr
  by_cases hp : passes
  · rw [if_pos hp, if_neg fun h => hf.1 h hp]; rfl
  · rw [if_neg hp, if_pos (hf.2 hp)]; rfl

/-- The nine checks in the source's order, each by its failing condition. -/
theorem firstFailure_getD (f : Frame) (o : TickOutcome) : (firstFailure f).getD o =
    if ones f 21 28 % 2 ≠ 0 then .parityErrorMinute
    else if ones f 29 35 % 2 ≠ 0 then .parityErrorHour
    else if ones f 36 58 % 2 ≠ 0 then .parityErrorDate
    else if specMinute f > 59 then .rangeErrorMinute
    else if specHour f > 23 then .rangeErrorHour
    else if specDay f > 31 ∨ specDay f = 0 then .rangeErrorDay
    else if specWeekday f > 7 ∨ specWeekday f = 0 then .rangeErrorWeekday
    else if specMonth f > 12 ∨ specMonth f = 0 then .rangeErrorMonth
    else if specYear f > 2099 then .rangeErrorYear
    else o := by
  refine check_orElse_getD (checkParityMinute_eq_ite f) Iff.rfl ?_
  refine check_orElse_getD (checkParityHour_eq_ite f) Iff.rfl ?_
  refine check_orElse_getD (checkParityDate_eq_ite f) Iff.rfl ?_
  refine check_orElse_getD (checkMinute_eq_ite f) Nat.not_le.symm ?_
  refine check_orElse_getD (checkHour_eq_ite f) Nat.not_le.symm ?_
  refine check_orElse_getD (checkDay_eq_ite f) (by omega) ?_
  refine check_orElse_getD (checkWeekday_eq_ite f) (by omega) ?_
  refine check_orElse_getD (checkMonth_eq_ite f) (by omega) ?_
  have hlast : (checkYear f <|> none) = checkYear f := by simp
  rw [← hlast]
  exact check_orElse_getD (checkYear_eq_ite f) Nat.not_le.symm rfl

/-! ## The effect of each outcome (R178) -/

/-- R178's table for the registers behind the sampler: what an outcome does on the way from `s` to `t`. -/
inductive OutcomeEffect (s t : State) : TickOutcome → Prop
  | okNone (flag : t.healthFlag = s.healthFlag) (decoded : t.decoded = s.decoded) : OutcomeEffect s t .okNone
  | commit (flag : t.healthFlag = false) (cursor : t.cursor = 0) (frame : t.frame = s.frame) :
      OutcomeEffect s t .commit
  | invalid (flag : t.healthFlag = true) (decoded : t.decoded = s.decoded) (frame : t.frame = s.frame)
      (cursor : t.cursor = s.cursor) : OutcomeEffect s t .invalidClassification
  | discard {e : TickOutcome} (error : 3 ≤ e.number) (flag : t.healthFlag = true)
      (decoded : t.decoded = s.decoded) (frame : t.frame = s.frame) (cursor : t.cursor = 0) : OutcomeEffect s t e

theorem discarded_effect {e : TickOutcome} (s : State) (h : 3 ≤ e.number) : OutcomeEffect s (discarded s) e :=
  .discard h rfl rfl rfl rfl

theorem committed_effect (d : DecodedTime) (s : State) : OutcomeEffect s (committed d s) .commit :=
  .commit rfl rfl rfl

/-- What the sampler wrote before does not matter. -/
theorem OutcomeEffect.of_sampled {s s1 t : State} {o : TickOutcome} (h : OutcomeEffect s1 t o)
    (hs : Sampled s s1) : OutcomeEffect s t o := by
  cases h with
  | okNone flag decoded => exact .okNone (flag.trans hs.healthFlag) (decoded.trans hs.decoded)
  | commit flag cursor frame => exact .commit flag cursor (frame.trans hs.frame)
  | invalid flag decoded frame cursor =>
    exact .invalid flag (decoded.trans hs.decoded) (frame.trans hs.frame) (cursor.trans hs.cursor)
  | discard error flag decoded frame cursor =>
    exact .discard error flag (decoded.trans hs.decoded) (frame.trans hs.frame) cursor

/-- Only the commit turns the flag from 1 to 0 (R180). -/
theorem OutcomeEffect.eq_commit {s t : State} {o : TickOutcome} (h : OutcomeEffect s t o)
    (hs : s.healthFlag = true) (ht : t.healthFlag = false) : o = .commit := by
  cases h with
  | okNone flag => exact absurd (ht.symm.trans (flag.trans hs)) (by decide)
  | commit => rfl
  | invalid flag => exact absurd (ht.symm.trans flag) (by decide)
  | discard _ flag => exact absurd (ht.symm.trans flag) (by decide)

theorem process_effect (ev : Event) (s : State) : OutcomeEffect s (process ev s).2 (process ev s).1 := by
  obtain ⟨_, h⟩ | ⟨_, c, _, h⟩ | ⟨_, _, h⟩ | ⟨_, h⟩ | ⟨_, h⟩ | ⟨_, e, he, _, h⟩ | ⟨_, _, _, h⟩ | ⟨_, h⟩ :=
    process_cases ev s <;> rw [h]
  · exact .okNone rfl rfl
  · exact .okNone rfl rfl
  · exact discarded_effect (e := .frameErrorOverflow) s (by decide)
  · exact .okNone rfl rfl
  · exact .okNone rfl rfl
  · exact discarded_effect (e := e) s (by omega)
  · exact committed_effect _ s
  · exact .invalid rfl rfl rfl rfl

/-- Every operation that answers a next state ends in an outcome and has its effect. -/
theorem exec_effect {i : Instr} {s t : State} (h : exec i s = .next t) :
    ∃ o, outcomeOf i s = some o ∧ OutcomeEffect s t o := by
  obtain ⟨c, _, hx⟩ | ⟨ev, s1, _, hs, ho, hx⟩ | ⟨_, ho, hx⟩ | ⟨_, e, he, ho, hx⟩ | ⟨f, _, _, ho, hx⟩ := exec_cases i s
  · cases hx.symm.trans h
  · cases hx.symm.trans h; exact ⟨_, ho, (process_effect ev s1).of_sampled hs⟩
  · cases hx.symm.trans h; exact ⟨_, ho, .okNone rfl rfl⟩
  · cases hx.symm.trans h; exact ⟨e, ho, discarded_effect s (by omega)⟩
  · cases hx.symm.trans h; exact ⟨_, ho, committed_effect _ s⟩

/-! ## Clock edges (R179) -/

/-- A step on a clock edge, or with nothing presented, answers a next state and takes its input off the list. -/
theorem step_of_clocks {s : State} (h : ∀ x ∈ s.stimulus, x.isClock = true) :
    ∃ t, step s = .next t ∧ t.stimulus = s.stimulus.tail := by
  cases hst : s.stimulus with
  | nil => exact ⟨s, step_of_nil hst, hst⟩
  | cons x rest =>
    have hx : x.isClock = true := h x (by simp [hst])
    cases x with
    | clock rst tk level ts =>
      cases rst with
      | true =>
        have hreset : fetch s = .reset := by simp [fetch, hst]
        exact ⟨resetRegisters (consume s), by simp [step, hreset], by simp [hst]⟩
      | false =>
        cases tk with
        | false => exact ⟨_, step_of_noTick hst, rfl⟩
        | true =>
          obtain ⟨-, -, hstim⟩ := tick_sampler level ts (consume s)
          exact ⟨_, step_eq_tick s level ts rest hst, by simp [hstim, hst]⟩
    | event | delta | unit => cases hx

/-! ## The obligations -/

/-- Settles O25: the label of FRAME is the first failure of its nine checks, or the commit. -/
theorem firstFailureNamesTheOutcome : Obligations.FirstFailureNamesTheOutcome :=
  fun f s => congrArg some ((complete_fst f s).trans (firstFailure_getD f .commit))

/-- Settles O33: the operation's outcome has one row of R178's table, and each row gives its clause. -/
theorem outcomeDecidesTheEffect : Obligations.OutcomeDecidesTheEffect := by
  intro i s t o h ho
  obtain ⟨o', ho', heff⟩ := exec_effect h
  cases ho'.symm.trans ho
  cases heff with
  | okNone flag decoded => exact ⟨fun _ => ⟨flag, decoded⟩, nofun, fun hne => absurd rfl hne⟩
  | commit flag cursor frame => exact ⟨nofun, fun _ => ⟨flag, cursor, frame⟩, fun _ hne => absurd rfl hne⟩
  | invalid flag decoded frame cursor =>
    exact ⟨nofun, nofun, fun _ _ => ⟨flag, decoded, frame, fun _ => cursor, fun hne => absurd rfl hne⟩⟩
  | discard error flag decoded frame cursor =>
    have hok : o ≠ .okNone := by rintro rfl; exact absurd error (by decide)
    have hinvalid : o ≠ .invalidClassification := by rintro rfl; exact absurd error (by decide)
    exact ⟨fun he => absurd he hok, fun he => absurd he (number_ne_commit error),
      fun _ _ => ⟨flag, decoded, frame, fun he => absurd he hinvalid, fun _ => cursor⟩⟩

/-- Settles O34: an idle step keeps the flag and a reset edge sets it, so the step ran an operation, and the one
outcome that clears the flag is the commit. -/
theorem onlyACommitClearsTheFlag : Obligations.OnlyACommitClearsTheFlag := by
  intro s t h hflag hclear
  obtain ⟨_, hs⟩ | ⟨_, hs⟩ | ⟨w, i, hf, _, hn, hs⟩ | ⟨w, e, _, _, hs⟩ := step_cases s
  · cases hs.symm.trans h
    exact absurd (hclear.symm.trans hflag) (by decide)
  · cases hs.symm.trans h
    have hset : (resetRegisters (consume s)).healthFlag = true := rfl
    exact absurd (hclear.symm.trans hset) (by decide)
  · obtain ⟨o, ho, heff⟩ := exec_effect (hs.symm.trans h)
    rw [outcomeOf_consume, heff.eq_commit hflag hclear] at ho
    rw [commitStrobe_eq s i w hf hn, ho]
    rfl
  · cases hs.symm.trans h

/-- Settles O40: by induction on the number of steps, as a step on clock edges leaves clock edges. -/
theorem clockEdgesNeverStop : Obligations.ClockEdgesNeverStop := by
  intro s h k
  induction k generalizing s with
  | zero => exact ⟨s, rfl⟩
  | succ k ih =>
    obtain ⟨t, hstep, hstim⟩ := step_of_clocks h
    have ht : ∀ x ∈ t.stimulus, x.isClock = true := fun x hx => h x (List.mem_of_mem_tail (hstim ▸ hx))
    obtain ⟨u, hrun⟩ := ih t ht
    exact ⟨u, (run_succ_of_next k hstep).trans hrun⟩

end Sys2Proof.Machine
end

section
/-! SUPPORT. Proofs of the family 70_reset_and_hazards: a reset edge from the fetch to the strobes, and a minute mark that does not read the flag it writes. -/

namespace Sys2Proof.Machine

/-! ## A reset edge (R190) -/

theorem fetch_of_resetEdge {s : State} {tk level : Bool} {ts : Timestamp} {rest : List Stimulus}
    (h : s.stimulus = .clock true tk level ts :: rest) : fetch s = .reset := by
  simp [fetch, h]

theorem step_of_reset {s : State} (h : fetch s = .reset) : step s = .next (resetRegisters (consume s)) := by
  simp [step, h]

theorem liveStrobe_of_reset {s : State} (h : fetch s = .reset) : liveStrobe s = some false := by
  simp [liveStrobe, h]

theorem commitStrobe_of_reset {s : State} (h : fetch s = .reset) : commitStrobe s = some false := by
  simp [commitStrobe, h]

/-! ## The flag before a minute mark (R204) -/

/-- Completion writes the flag whichever way it ends, and none of its nine checks reads it. -/
theorem complete_ignores_healthFlag (flag : Bool) (f : Frame) (s : State) :
    complete f { s with healthFlag := flag } = complete f s := by
  cases h : firstFailure f with
  | none => exact (complete_of_pass f _ h).trans (complete_of_pass f s h).symm
  | some e => exact (complete_of_fail f _ e h).trans (complete_of_fail f s e h).symm

/-- A minute mark completes the frame or discards it, and both write the flag without reading it. -/
theorem process_minuteMark_ignores_healthFlag (flag : Bool) (s : State) :
    process .minuteMark { s with healthFlag := flag } = process .minuteMark s := by
  by_cases h : s.cursor.val = 58
  · calc process .minuteMark { s with healthFlag := flag }
        = complete s.frame { s with healthFlag := flag } := processMinuteMark_of_max _ h
      _ = complete s.frame s := complete_ignores_healthFlag flag s.frame s
      _ = process .minuteMark s := (processMinuteMark_of_max s h).symm
  · exact (processMinuteMark_of_ne _ h).trans (processMinuteMark_of_ne s h).symm

theorem exec_minuteMark (s : State) : exec .minuteMark s = .next (process .minuteMark s).2 := rfl

/-- After an Invalid a minute mark does what it would have done without it (R204). -/
theorem execAll_invalid_minuteMark (s : State) : execAll [.invalid, .minuteMark] s = exec .minuteMark s := by
  obtain ⟨hinvalid, -⟩ := invalidRaisesTheFlagOnly s
  rw [execAll_cons _ hinvalid, execAll_singleton (exec_minuteMark _), process_minuteMark_ignores_healthFlag,
    exec_minuteMark]

/-! ## The obligations -/

/-- Settles O44: the mark after the Invalid is the mark alone, which commits a passing frame at the last slot (O7). -/
theorem invalidDoesNotPoison : Obligations.InvalidDoesNotPoison := by
  intro s
  obtain ⟨-, commits, -⟩ := minuteMarkEndsTheFrame s
  exact ⟨fun d h58 hp hd => (execAll_invalid_minuteMark s).trans (commits h58 d hp hd).1,
    execAll_invalid_minuteMark s⟩

/-- Settles O2: the fetch answers the reset before it looks at the tick, and the step and both strobes go by the
fetch. -/
theorem resetEdgeOverridesTick : Obligations.ResetEdgeOverridesTick := by
  intro s tk level ts rest h
  have hreset := fetch_of_resetEdge h
  refine ⟨?_, liveStrobe_of_reset hreset, commitStrobe_of_reset hreset⟩
  rw [step_of_reset hreset, consume_of_cons h]
  rfl

end Sys2Proof.Machine
end
